-- ==== Sys2Proof/Word.lean ====
section
/-! DEFINITION. The word type of the CORE block (00_scope.md R6, R7). -/

namespace Sys2Proof

/-- A byte: every register value, memory cell, immediate, opcode and flag byte is an unsigned value 0..255 (R7, R16). -/
abbrev Byte := BitVec 8

end Sys2Proof
end

