-- ==== Sys2Proof/Config.lean ====
section
/-! DEFINITION. The named parameters the spec leaves to the implementation (00_scope.md R5) and their defaults.
They are plain data: State holds one value of `Params`, fixed at construction, so that a claim can quantify over
all of them (notes/assumptions/1.md). -/

namespace Sys2Proof

/-- `BOUNDS_POLICY` (R5, R37, D3): what an address outside 0..255 and a stack pointer step past either end do. -/
inductive BoundsPolicy where
  /-- Raise an error (the default). -/
  | fault
  /-- Reduce modulo 256. -/
  | wrap
  deriving DecidableEq, Repr

/-- The three named parameters of R5. -/
structure Params where
  /-- `SP_RESET`: the value of R7 at construction (R19, D2). -/
  spReset : Byte
  /-- `BOUNDS_POLICY`. -/
  boundsPolicy : BoundsPolicy
  /-- `JUMPS_AS_UNKNOWN`: opcodes 0x54, 0x55, 0x56 are unknown (R56, R97, D6). -/
  jumpsAsUnknown : Bool
  deriving DecidableEq, Repr

/-- The defaults of R5: `SP_RESET` = 0xF4, `BOUNDS_POLICY` = `Fault`, `JUMPS_AS_UNKNOWN` = false. -/
def Params.default : Params :=
  { spReset := 0xF4, boundsPolicy := .fault, jumpsAsUnknown := false }

/-- `MEM_SIZE` (R5, R33): the number of byte cells. -/
abbrev memSize : Nat := 256

end Sys2Proof
end

