-- ==== Sys2Proof/Syntax.lean ====
section
/-! DEFINITION. The thirteen instructions of spec/opcode_table.json (30_encoding.md R53), the names of the general
registers (10_state.md R15) and the four formats (R49). -/

namespace Sys2Proof

/-- The eight general registers; R7 is the stack pointer (R15, R17). -/
inductive Reg where
  | r0 | r1 | r2 | r3 | r4 | r5 | r6 | r7
  deriving DecidableEq, Repr

/-- The thirteen mnemonics of R2, in the order of R53. -/
inductive Mnemonic where
  | hlt | ldi | prn | mul | add | cmp | push | pop | call | ret | jmp | jeq | jne
  deriving DecidableEq, Repr

/-- The formats of R49. -/
inductive Format where
  /-- Opcode only. -/
  | n
  /-- Opcode, register byte. -/
  | r
  /-- Opcode, two register bytes. -/
  | rr
  /-- Opcode, register byte, immediate byte. -/
  | ri
  deriving DecidableEq, Repr

/-- An instruction with its operand bytes as they stand in memory. A register operand is one whole byte (R48, R51):
0..7 name R0..R7, and 8..255 are operand values the machine meets and raises InvalidRegister on (R69). -/
inductive Instr where
  | hlt
  | ldi (reg imm8 : Byte)
  | prn (reg : Byte)
  | mul (regA regB : Byte)
  | add (regA regB : Byte)
  | cmp (regA regB : Byte)
  | push (reg : Byte)
  | pop (reg : Byte)
  | call (reg : Byte)
  | ret
  | jmp (reg : Byte)
  | jeq (reg : Byte)
  | jne (reg : Byte)
  deriving DecidableEq, Repr

end Sys2Proof
end

