-- ==== Sys2Proof/WellFormed.lean ====
section
/-! DEFINITION. Which instruction terms are well formed: every register operand byte names a register
(30_encoding.md R51, R57). An immediate byte is never ill formed (R52). -/

namespace Sys2Proof

/-- A register operand byte names a register exactly when its value is 0..7 (R51). -/
def namesRegister (b : Byte) : Bool := b.toNat < 8

/-- The instruction's register operands all name registers. -/
def Instr.wellFormed : Instr → Bool
  | .hlt => true
  | .ldi r _ => namesRegister r
  | .prn r => namesRegister r
  | .mul a b => namesRegister a && namesRegister b
  | .add a b => namesRegister a && namesRegister b
  | .cmp a b => namesRegister a && namesRegister b
  | .push r => namesRegister r
  | .pop r => namesRegister r
  | .call r => namesRegister r
  | .ret => true
  | .jmp r => namesRegister r
  | .jeq r => namesRegister r
  | .jne r => namesRegister r

end Sys2Proof
end

