-- ==== Sys2Proof/Decode.lean ====
section
/-! DEFINITION. The decoder unit (30_encoding.md R48 to R60), decoding of a byte list, the encoder written from the
same formats, and the reading of a word of spec/opcode_table.json. -/

namespace Sys2Proof

/-! ## The opcode map (R53) and the decoder unit (R59) -/

/-- One row of the opcode map: the outputs of the decoder unit for one opcode byte (R59).
`aluOp` is the 2-bit ALU select of R60, or none. -/
structure OpcodeRow where
  opcode : Byte
  op : Mnemonic
  fmt : Format
  len : Nat
  aluOp : Option (BitVec 2)
  setsPc : Bool
  halt : Bool
  deriving DecidableEq, Repr

/-- ALU select of ADD (R60). -/
def aluAdd : BitVec 2 := 0
/-- ALU select of MUL (R60). -/
def aluMul : BitVec 2 := 1
/-- ALU select of CMP (R60). -/
def aluCmp : BitVec 2 := 2

/-- The complete opcode map of R53, one row per instruction, with the columns opcode, mnemonic, format, length,
ALU op, sets PC, halts. -/
def opcodeTable : List OpcodeRow :=
  [ ⟨0x01, .hlt,  .n,  1, none,        false, true⟩,
    ⟨0x82, .ldi,  .ri, 3, none,        false, false⟩,
    ⟨0x47, .prn,  .r,  2, none,        false, false⟩,
    ⟨0xA2, .mul,  .rr, 3, some aluMul, false, false⟩,
    ⟨0xA0, .add,  .rr, 3, some aluAdd, false, false⟩,
    ⟨0xA7, .cmp,  .rr, 3, some aluCmp, false, false⟩,
    ⟨0x45, .push, .r,  2, none,        false, false⟩,
    ⟨0x46, .pop,  .r,  2, none,        false, false⟩,
    ⟨0x50, .call, .r,  2, none,        true,  false⟩,
    ⟨0x11, .ret,  .n,  1, none,        true,  false⟩,
    ⟨0x54, .jmp,  .r,  2, none,        true,  false⟩,
    ⟨0x55, .jeq,  .r,  2, none,        true,  false⟩,
    ⟨0x56, .jne,  .r,  2, none,        true,  false⟩ ]

/-- The three instructions that `JUMPS_AS_UNKNOWN` removes from the map (R56, R97). -/
def Mnemonic.isJump : Mnemonic → Bool
  | .jmp | .jeq | .jne => true
  | .hlt | .ldi | .prn | .mul | .add | .cmp | .push | .pop | .call | .ret => false

/-- The decoder unit (R59): a pure function of the opcode byte and `JUMPS_AS_UNKNOWN`. It compares all eight bits
of the byte with the table (R50); `none` is `valid = 0` (R56). -/
def decoder (jumpsAsUnknown : Bool) (ir : Byte) : Option OpcodeRow :=
  match opcodeTable.find? (fun row => row.opcode == ir) with
  | some row => if jumpsAsUnknown && row.op.isJump then none else some row
  | none => none

/-! ## Operand assembly (R51, R52, R70) -/

/-- The instruction an opcode's mnemonic and the operand bytes make (R49, R70). An operand byte the format does not
have is ignored. -/
def assemble (op : Mnemonic) (b1 b2 : Byte) : Instr :=
  match op with
  | .hlt => .hlt
  | .ldi => .ldi b1 b2
  | .prn => .prn b1
  | .mul => .mul b1 b2
  | .add => .add b1 b2
  | .cmp => .cmp b1 b2
  | .push => .push b1
  | .pop => .pop b1
  | .call => .call b1
  | .ret => .ret
  | .jmp => .jmp b1
  | .jeq => .jeq b1
  | .jne => .jne b1

/-- An operand byte the format has is read; for one it does not have, nothing is read, and the zero that stands in its
place is ignored by `assemble`. -/
def operandIf {ε : Type} (has : Bool) (byte : Except ε Byte) : Except ε Byte :=
  if has then byte else .ok 0

/-- Decoding over any source of bytes, in the order of R66 to R68: the opcode byte first, then the decoder unit, then
exactly the operand bytes the length of the opcode asks for. `byteAt k` is byte `k` of the instruction, or the error of
reading it; `unknown` is the error of an opcode outside the map. -/
def decodeWith {ε : Type} (jumpsAsUnknown : Bool) (unknown : Byte → ε) (byteAt : Nat → Except ε Byte) :
    Except ε Instr := do
  let ir ← byteAt 0
  match decoder jumpsAsUnknown ir with
  | none => .error (unknown ir)
  | some row =>
    let b1 ← operandIf (2 ≤ row.len) (byteAt 1)
    let b2 ← operandIf (row.len = 3) (byteAt 2)
    .ok (assemble row.op b1 b2)

/-- Why a list of bytes does not decode. -/
inductive DecodeError where
  /-- The first byte is no opcode of the map (R56). -/
  | unknownOpcode (opcode : Byte)
  /-- The list ends before the instruction does. -/
  | truncated
  deriving DecidableEq, Repr

/-- Byte `k` of a list, or the named error of its absence. -/
def listByteAt (bytes : List Byte) (k : Nat) : Except DecodeError Byte :=
  match bytes[k]? with
  | some b => .ok b
  | none => .error .truncated

/-- The mnemonic of an instruction. -/
def Instr.mnemonic : Instr → Mnemonic
  | .hlt => .hlt
  | .ldi _ _ => .ldi
  | .prn _ => .prn
  | .mul _ _ => .mul
  | .add _ _ => .add
  | .cmp _ _ => .cmp
  | .push _ => .push
  | .pop _ => .pop
  | .call _ => .call
  | .ret => .ret
  | .jmp _ => .jmp
  | .jeq _ => .jeq
  | .jne _ => .jne

/-- The length in bytes of an instruction, by its format (R49). -/
def Instr.length : Instr → Nat
  | .hlt | .ret => 1
  | .prn _ | .push _ | .pop _ | .call _ | .jmp _ | .jeq _ | .jne _ => 2
  | .ldi _ _ | .mul _ _ | .add _ _ | .cmp _ _ => 3

/-- Decode the instruction at the head of a list of bytes: the instruction and the bytes after it. Total; rejects by
name. -/
def decode (jumpsAsUnknown : Bool) (bytes : List Byte) : Except DecodeError (Instr × List Byte) :=
  match decodeWith jumpsAsUnknown .unknownOpcode (listByteAt bytes) with
  | .ok i => .ok (i, bytes.drop i.length)
  | .error e => .error e

/-! ## The encoder (R49, R53) -/

/-- The bytes of an instruction, byte 0 first (R38, R49). -/
def encode : Instr → List Byte
  | .hlt => [0x01]
  | .ldi r v => [0x82, r, v]
  | .prn r => [0x47, r]
  | .mul a b => [0xA2, a, b]
  | .add a b => [0xA0, a, b]
  | .cmp a b => [0xA7, a, b]
  | .push r => [0x45, r]
  | .pop r => [0x46, r]
  | .call r => [0x50, r]
  | .ret => [0x11]
  | .jmp r => [0x54, r]
  | .jeq r => [0x55, r]
  | .jne r => [0x56, r]

/-! ## Register operand bytes (R51) -/

/-- The register a register operand byte names: 0..7 name R0..R7, any other byte names none (R51). -/
def Reg.ofByte? (b : Byte) : Option Reg :=
  match b.toNat with
  | 0 => some .r0
  | 1 => some .r1
  | 2 => some .r2
  | 3 => some .r3
  | 4 => some .r4
  | 5 => some .r5
  | 6 => some .r6
  | 7 => some .r7
  | _ => none

/-- The operand byte that names a register (R51). -/
def Reg.toByte : Reg → Byte
  | .r0 => 0
  | .r1 => 1
  | .r2 => 2
  | .r3 => 3
  | .r4 => 4
  | .r5 => 5
  | .r6 => 6
  | .r7 => 7

/-! ## Words of spec/opcode_table.json -/

/-- The `n` low bytes of a number, the most significant of them first. -/
def bytesOf : Nat → Nat → List Byte
  | 0, _ => []
  | n + 1, w => BitVec.ofNat 8 (w / 256 ^ n) :: bytesOf n w

/-- The bytes of a word of `nbits` bits numbered as spec/opcode_table.json numbers them: there byte 0, the opcode at
PC, is the MOST significant byte of the row (its "encoding_note", and "fixed" puts LDI's opcode in bits 23..16), so the
first byte in memory is the top one. Bytes of zero follow up to the longest instruction (three bytes, R48).
DESIGN CHOICE, notes/assumptions/3.md. -/
def tableWordBytes (nbits w : Nat) : List Byte :=
  bytesOf (nbits / 8) w ++ List.replicate (3 - nbits / 8) 0

/-- What the decoder reads from a word of spec/opcode_table.json, with the default `JUMPS_AS_UNKNOWN` (R5). -/
def decodeTableWord (nbits w : Nat) : Option Instr :=
  match decode Params.default.jumpsAsUnknown (tableWordBytes nbits w) with
  | .ok (i, _) => some i
  | .error _ => none

end Sys2Proof
end

