-- ==== Sys2Proof/Machine/State.lean ====
section
/-! DEFINITION. The state of the CORE block as plain data (10_state.md R32), the error records (60_exceptions.md R100),
the reasons a step stops, and the state at construction (70_reset_and_hazards.md R115). -/

namespace Sys2Proof.Machine

/-- The eight general registers, 8 bits each (R15, R16). `r7` is SP: one storage, not a copy (R17). -/
structure RegFile where
  r0 : Byte
  r1 : Byte
  r2 : Byte
  r3 : Byte
  r4 : Byte
  r5 : Byte
  r6 : Byte
  r7 : Byte
  deriving DecidableEq, Repr

/-- The error records of R100. `pc` is the address of the instruction that faulted. -/
inductive ErrorRecord where
  /-- Code 1: the opcode byte at PC is not in the opcode map. -/
  | unknownInstruction (opcode : Byte) (pc : Nat)
  /-- Code 2: an address outside 0..255 under `Fault`. -/
  | memoryBoundsError (addr : Nat) (pc : Nat)
  /-- Code 3: SP decrement from 0 under `Fault`. -/
  | stackOverflow (sp : Byte) (pc : Nat)
  /-- Code 4: SP increment from 255 under `Fault`. -/
  | stackUnderflow (sp : Byte) (pc : Nat)
  /-- Code 5: a register operand byte of 8 or more. -/
  | invalidRegister (index : Byte) (pc : Nat)
  /-- Code 6: an ALU select outside ADD, MUL, CMP; unreachable (R84). -/
  | unsupportedAluOperation (op : BitVec 2) (pc : Nat)
  /-- Code 7: `load` given more than 256 bytes; raised by `load` only, never by a step. -/
  | loadError (length : Nat)
  deriving DecidableEq, Repr

/-- The run status (R29). -/
inductive Status where
  | stopped
  | running
  | halted
  | faulted (e : ErrorRecord)
  deriving DecidableEq, Repr

/-- The memory M[0..255] (R33): a list of address and byte pairs in one canonical form (`Memory.wf`): addresses
strictly rising, all below 256, and no listed byte 0, since an unlisted cell reads as 0, its reset value (R34). -/
abbrev Memory := List Host.Cell

/-- The state of the CORE block (R32). -/
structure State where
  /-- R0..R7 (R15). -/
  regs : RegFile
  /-- The program counter, 0..255 under `Wrap` and 0..256 under `Fault` (R21, R22). -/
  pc : Nat
  /-- The flags register FL: bit 0 E, bit 1 G, bit 2 L (R24). -/
  fl : Byte
  /-- The run status (R29). -/
  status : Status
  /-- The output stream, oldest byte first (R30). -/
  out : List Byte
  /-- The memory (R33). -/
  mem : Memory
  /-- The model's own field: the implementation parameters of R5, fixed at construction (notes/assumptions/1.md). -/
  params : Params
  deriving DecidableEq, Repr

/-- Why a step ends without a next state. The errors of R100 are NOT here: R101 gives them a next state, the same
state with status `Faulted(e)`. -/
inductive Fault where
  /-- Raised by `step` when the status is Stopped, Halted or Faulted: the core takes no step and only the host can act
  (R65). A stuck state; safe. -/
  | notRunning
  deriving DecidableEq, Repr

/-- Why the model gives an instruction no meaning. -/
inductive Refusal where
  /-- Raised by `exec` for an instruction that has no meaning yet; no arm does. Safe. -/
  | notModelled (mnemonic : String)
  deriving DecidableEq, Repr

/-- The block as construction leaves it, for any parameters (R115): memory zero, R0..R6 = 0, R7 = `SP_RESET`, PC = 0,
FL = 0, status Stopped, `out` empty. -/
def State.construct (p : Params) : State :=
  { regs := { r0 := 0, r1 := 0, r2 := 0, r3 := 0, r4 := 0, r5 := 0, r6 := 0, r7 := p.spReset }
    pc := 0
    fl := 0
    status := .stopped
    out := []
    mem := []
    params := p }

/-- The state after reset, with the default parameters of R5 (R115, R116). -/
def State.reset : State := State.construct Params.default

end Sys2Proof.Machine
end

