-- ==== Sys2Proof/Machine/Ops.lean ====
section
/-! DEFINITION. The named operations over memory, registers, PC, stack pointer, output and status
(00_scope.md R8, R9; 10_state.md R20; 20_memory.md R35), taking an error (60_exceptions.md R101) and the one way back
from it, the host's next run (70_reset_and_hazards.md R118). -/

namespace Sys2Proof.Machine

/-! ## Memory cells -/

/-- What a cell that nothing has written reads as: 0, the reset value (R34). -/
def Memory.unlisted : Byte := 0

/-- The byte of the cell with key `a`. -/
def Memory.readAt : Memory → Nat → Byte
  | [], _ => Memory.unlisted
  | (k, v) :: m, a => if k = a then v else Memory.readAt m a

/-- Put a cell before a memory whose keys are larger: listed unless its byte is what an unlisted cell reads as. -/
def Memory.cons (a : Nat) (v : Byte) (m : Memory) : Memory :=
  if v = Memory.unlisted then m else (a, v) :: m

/-- Store byte `v` into the cell with key `a`, keeping the canonical form. -/
def Memory.writeAt : Memory → Nat → Byte → Memory
  | [], a, v => Memory.cons a v []
  | (k, w) :: m, a, v =>
    if a < k then Memory.cons a v ((k, w) :: m)
    else if a = k then Memory.cons a v m
    else (k, w) :: Memory.writeAt m a v

/-- The canonical form above a bound: keys strictly rising from `lo`, all below 256, no listed byte 0. -/
def Memory.wfFrom : Nat → Memory → Bool
  | _, [] => true
  | lo, (k, v) :: m => lo ≤ k && k < memSize && v != Memory.unlisted && Memory.wfFrom (k + 1) m

/-- The canonical form of a memory. -/
def Memory.wf (m : Memory) : Bool := Memory.wfFrom 0 m

/-- `MemRead(a, 1)` (R8, R35). The address is a byte: it has passed `chk`. -/
def State.readByte (s : State) (a : Byte) : Byte := Memory.readAt s.mem a.toNat

/-- `MemWrite(a, 1, v)` (R8, R35). -/
def State.writeByte (s : State) (a v : Byte) : State := { s with mem := Memory.writeAt s.mem a.toNat v }

/-! ## The register file (R20) -/

/-- Read port: `x[i]`. -/
def RegFile.get (f : RegFile) : Reg → Byte
  | .r0 => f.r0
  | .r1 => f.r1
  | .r2 => f.r2
  | .r3 => f.r3
  | .r4 => f.r4
  | .r5 => f.r5
  | .r6 => f.r6
  | .r7 => f.r7

/-- Write port: `x[i] <- v`. No register is hard-wired (R15). -/
def RegFile.set (f : RegFile) (r : Reg) (v : Byte) : RegFile :=
  match r with
  | .r0 => { f with r0 := v }
  | .r1 => { f with r1 := v }
  | .r2 => { f with r2 := v }
  | .r3 => { f with r3 := v }
  | .r4 => { f with r4 := v }
  | .r5 => { f with r5 := v }
  | .r6 => { f with r6 := v }
  | .r7 => { f with r7 := v }

/-- `x[i]` (R8). -/
def State.reg (s : State) (r : Reg) : Byte := s.regs.get r

/-- `x[i] <- v` (R8). -/
def State.setReg (s : State) (r : Reg) (v : Byte) : State := { s with regs := s.regs.set r v }

/-- `SP`, another name for `x[7]` (R8, R17). -/
def State.sp (s : State) : Byte := s.reg .r7

/-- `SP <- v`: the SP write of R20 writes `x[7]`. -/
def State.setSp (s : State) (v : Byte) : State := s.setReg .r7 v

/-! ## Program counter, status, output -/

/-- `pc <- target` (R8, R21). -/
def State.setPc (s : State) (target : Nat) : State := { s with pc := target }

/-- `status <- v` (R29). -/
def State.setStatus (s : State) (v : Status) : State := { s with status := v }

/-- `Out(v)`: append a byte to the output stream (R8, R30). -/
def State.emit (s : State) (v : Byte) : State := { s with out := s.out ++ [v] }

/-! ## The address, PC-advance and stack-pointer helpers of R9 -/

/-- `chk(a)`: an address in 0..255, or, outside it, the address modulo 256 under `Wrap` and MemoryBoundsError under
`Fault` (R9, R37). Addresses are never negative: only PC + n reaches `chk` (R37). -/
def chk (s : State) (a : Nat) : Except ErrorRecord Byte :=
  if a ≤ 255 then .ok (BitVec.ofNat 8 a)
  else
    match s.params.boundsPolicy with
    | .wrap => .ok (BitVec.ofNat 8 (a % 256))
    | .fault => .error (.memoryBoundsError a s.pc)

/-- The PC after a sequential advance by `n` bytes: modulo 256 under `Wrap`; under `Fault` it may be 256 (R9, R22). -/
def nextSeqPc (s : State) (n : Nat) : Nat :=
  match s.params.boundsPolicy with
  | .wrap => (s.pc + n) % 256
  | .fault => s.pc + n

/-- `adv(n)` (R9). -/
def advance (n : Nat) (s : State) : State := s.setPc (nextSeqPc s n)

/-- `sp_dec(v)` (R9, R86). -/
def spDec (s : State) (v : Byte) : Except ErrorRecord Byte :=
  if v = 0 then
    match s.params.boundsPolicy with
    | .wrap => .ok 255
    | .fault => .error (.stackOverflow v s.pc)
  else .ok (v - 1)

/-- `sp_inc(v)` (R9, R86). -/
def spInc (s : State) (v : Byte) : Except ErrorRecord Byte :=
  if v = 255 then
    match s.params.boundsPolicy with
    | .wrap => .ok 0
    | .fault => .error (.stackUnderflow v s.pc)
  else .ok (v + 1)

/-- `x[7] <- sp_dec(x[7])` (R87, R92). -/
def decSp (s : State) : Except ErrorRecord State := do
  let v ← spDec s s.sp
  .ok (s.setSp v)

/-- `x[7] <- sp_inc(x[7])` (R88, R93). -/
def incSp (s : State) : Except ErrorRecord State := do
  let v ← spInc s s.sp
  .ok (s.setSp v)

/-! ## Taking an error, and coming back -/

/-- Fault entry (R101): the step's working copy is thrown away, so registers, PC, FL, memory and `out` are those of the
state `s` the step began in, and `status <- Faulted(e)`. -/
def takeFault (e : ErrorRecord) (s : State) : State := s.setStatus (.faulted e)

/-- The beginning of the host's `run()` (R118): `status <- Running`, from any status, everything else kept. There is no
return-from-trap instruction (R99, R104): this is the only way on after a fault or a halt. -/
def resume (s : State) : State := s.setStatus .running

/-- How a step ends (R10, R72): if no statement raised, the working copy becomes the state; if one raised `e`, the
working copy is dropped and the fault entry of R101 is taken from the state the step began in. -/
def commit (s : State) (work : Except ErrorRecord State) : Host.Outcome State Fault Refusal :=
  match work with
  | .ok t => .next t
  | .error e => .next (takeFault e s)

/-- The code of an error kind (R100, D12). -/
def ErrorRecord.code : ErrorRecord → Nat
  | .unknownInstruction _ _ => 1
  | .memoryBoundsError _ _ => 2
  | .stackOverflow _ _ => 3
  | .stackUnderflow _ _ => 4
  | .invalidRegister _ _ => 5
  | .unsupportedAluOperation _ _ => 6
  | .loadError _ => 7

end Sys2Proof.Machine
end

