-- ==== Sys2Proof/Machine/Flags.lean ====
section
/-! DEFINITION. The flags register FL and the one flag computation, CMP's (10_state.md R24 to R27, 42_alu.md R83). -/

namespace Sys2Proof.Machine

/-- Bit 0 of FL, Equal (R24). -/
def State.flagE (s : State) : Bool := s.fl.getLsbD 0

/-- Bit 1 of FL, Greater (R24). -/
def State.flagG (s : State) : Bool := s.fl.getLsbD 1

/-- Bit 2 of FL, Less (R24). -/
def State.flagL (s : State) : Bool := s.fl.getLsbD 2

/-- `FL <- v`: all eight bits (R8, R25). -/
def State.setFl (s : State) (v : Byte) : State := { s with fl := v }

/-- The flag byte of a comparison of `a` against `b` (R83): `zext_8((a < b) || (a > b) || (a = b))`, unsigned. -/
def compareFlags (a b : Byte) : Byte :=
  BitVec.zeroExtend 8
    (BitVec.ofBool (a.ult b) ++ BitVec.ofBool (b.ult a) ++ BitVec.ofBool (a == b) : BitVec 3)

end Sys2Proof.Machine
end

