-- ==== Sys2Proof/Machine/ControlUnit.lean ====
section
/-! DEFINITION. The control_flow_unit (44_control_flow.md R90): the one place that gives a completed step its next PC. -/

namespace Sys2Proof.Machine

/-- What an instruction asks of the control_flow_unit (R90). -/
inductive Transfer where
  /-- `adv(len)`: the next instruction in sequence (R71). -/
  | seq (len : Nat)
  /-- The target, always: CALL, JMP with `x[r]`, RET with the popped byte. -/
  | always (t : Byte)
  /-- The target if E is set, else `adv(2)` (JEQ, R95). -/
  | ifEqual (t : Byte)
  /-- The target if E is clear, else `adv(2)` (JNE, R96). -/
  | ifNotEqual (t : Byte)
  /-- PC unchanged (HLT, R75). -/
  | hold
  deriving DecidableEq, Repr

/-- The control_flow_unit: write the next PC (R71, R90). A target is an absolute address 0..255 (R91). -/
def controlFlow (tr : Transfer) (s : State) : State :=
  match tr with
  | .seq len => advance len s
  | .always t => s.setPc t.toNat
  | .ifEqual t => if s.flagE then s.setPc t.toNat else advance 2 s
  | .ifNotEqual t => if s.flagE then advance 2 s else s.setPc t.toNat
  | .hold => s

end Sys2Proof.Machine
end

