-- ==== Sys2Proof/Machine/Operands.lean ====
section
/-! DEFINITION. The operand forms: register operand bytes with their check (30_encoding.md R51, 40 R69). The other form,
the immediate byte of LDI, is the byte itself (R52). -/

namespace Sys2Proof.Machine

/-- The register operand check (R51, R69): the register a byte names, or InvalidRegister(index = byte, pc = PC). -/
def regOperand (s : State) (b : Byte) : Except ErrorRecord Reg :=
  match Reg.ofByte? b with
  | some r => .ok r
  | none => .error (.invalidRegister b s.pc)

/-- The two register operands of format RR, checked in byte order: regA first, then regB (R51, R69). -/
def regOperands (s : State) (a b : Byte) : Except ErrorRecord (Reg × Reg) := do
  let ra ← regOperand s a
  let rb ← regOperand s b
  .ok (ra, rb)

end Sys2Proof.Machine
end

