-- ==== Sys2Proof/Machine/Alu.lean ====
section
/-! DEFINITION. The alu unit and MUL, ADD, CMP (42_alu.md). -/

namespace Sys2Proof.Machine

/-- The outputs of the alu (R78). `result` is `some v` when `res_we = 1`, and `flIn` is `some f` when `fl_we = 1`; an
output that is not enabled has no value. -/
structure AluOut where
  result : Option Byte
  flIn : Option Byte
  deriving DecidableEq, Repr

/-- The alu function (R79): results modulo 256, the select of R60, and no value for any other select (R84). -/
def alu (op : BitVec 2) (a b : Byte) (pc : Nat) : Except ErrorRecord AluOut :=
  if op = aluAdd then .ok { result := some (BitVec.ofNat 8 (a.toNat + b.toNat)), flIn := none }
  else if op = aluMul then .ok { result := some (BitVec.ofNat 8 (a.toNat * b.toNat)), flIn := none }
  else if op = aluCmp then .ok { result := none, flIn := some (compareFlags a b) }
  else .error (.unsupportedAluOperation op pc)

/-- Take the alu's enabled outputs: the result to write port D at index `ra`, the flag byte to FL (R78). -/
def AluOut.apply (o : AluOut) (ra : Reg) (s : State) : State :=
  let s1 := match o.result with
    | some v => s.setReg ra v
    | none => s
  match o.flIn with
  | some f => s1.setFl f
  | none => s1

/-- An ALU instruction with its select (R70, R78): read `x[ra]` and `x[rb]`, run the alu, take its outputs, `adv(3)`. -/
def aluStep (op : BitVec 2) (a b : Byte) (s : State) : Except ErrorRecord State := do
  let (ra, rb) ← regOperands s a b
  let o ← alu op (s.reg ra) (s.reg rb) s.pc
  .ok (controlFlow (.seq 3) (o.apply ra s))

/-- MUL (R81): `x[ra] <- (x[ra] * x[rb]) mod 256; adv(3)`. -/
def execMul (a b : Byte) (s : State) : Host.Outcome State Fault Refusal :=
  commit s (aluStep aluMul a b s)

/-- ADD (R82): `x[ra] <- (x[ra] + x[rb]) mod 256; adv(3)`. -/
def execAdd (a b : Byte) (s : State) : Host.Outcome State Fault Refusal :=
  commit s (aluStep aluAdd a b s)

/-- CMP (R83): `FL <- zext_8((a < b) || (a > b) || (a = b)); adv(3)`. -/
def execCmp (a b : Byte) (s : State) : Host.Outcome State Fault Refusal :=
  commit s (aluStep aluCmp a b s)

end Sys2Proof.Machine
end

