-- ==== Sys2Proof/Machine/HaltLoadPrint.lean ====
section
/-! DEFINITION. HLT, LDI, PRN (41_halt_load_print.md). -/

namespace Sys2Proof.Machine

/-- HLT (R75): `status <- Halted`; PC is not advanced. -/
def execHlt (s : State) : Host.Outcome State Fault Refusal :=
  commit s (.ok (controlFlow .hold (s.setStatus .halted)))

/-- LDI (R76): `x[r] <- imm8; adv(3)`. -/
def execLdi (r imm8 : Byte) (s : State) : Host.Outcome State Fault Refusal :=
  commit s do
    let r ← regOperand s r
    .ok (controlFlow (.seq 3) (s.setReg r imm8))

/-- PRN (R77): `Out(x[r]); adv(2)`. -/
def execPrn (r : Byte) (s : State) : Host.Outcome State Fault Refusal :=
  commit s do
    let r ← regOperand s r
    .ok (controlFlow (.seq 2) (s.emit (s.reg r)))

end Sys2Proof.Machine
end

