-- ==== Sys2Proof/Machine/Jumps.lean ====
section
/-! DEFINITION. CALL, RET, JMP, JEQ, JNE (44_control_flow.md). With `JUMPS_AS_UNKNOWN = true` the decoder raises
UnknownInstruction for the last three and their rules do not run (R94, R97): that is `decoder`'s, not these
meanings'. -/

namespace Sys2Proof.Machine

/-- CALL (R92): check the return address PC + 2, decrement SP, store the return address, then go to `x[r]`, read after
the push. -/
def execCall (r : Byte) (s : State) : Host.Outcome State Fault Refusal :=
  commit s do
    let r ← regOperand s r
    let ret ← chk s (s.pc + 2)
    let s1 ← decSp s
    let s2 := s1.writeByte s1.sp ret
    .ok (controlFlow (.always (s2.reg r)) s2)

/-- RET (R93): read at SP, increment SP, go to the byte read. -/
def execRet (s : State) : Host.Outcome State Fault Refusal :=
  commit s do
    let v := s.readByte s.sp
    let s1 ← incSp s
    .ok (controlFlow (.always v) s1)

/-- JMP (R94): `pc <- x[r]`. -/
def execJmp (r : Byte) (s : State) : Host.Outcome State Fault Refusal :=
  commit s do
    let r ← regOperand s r
    .ok (controlFlow (.always (s.reg r)) s)

/-- JEQ (R95): `pc <- x[r]` if E is set, else `adv(2)`. -/
def execJeq (r : Byte) (s : State) : Host.Outcome State Fault Refusal :=
  commit s do
    let r ← regOperand s r
    .ok (controlFlow (.ifEqual (s.reg r)) s)

/-- JNE (R96): `pc <- x[r]` if E is clear, else `adv(2)`. -/
def execJne (r : Byte) (s : State) : Host.Outcome State Fault Refusal :=
  commit s do
    let r ← regOperand s r
    .ok (controlFlow (.ifNotEqual (s.reg r)) s)

end Sys2Proof.Machine
end

