-- ==== Sys2Proof/Machine/Stack.lean ====
section
/-! DEFINITION. PUSH and POP (43_stack.md). Sub-steps run in the order written, each reading the registers as the one
before left them (R10, D16). -/

namespace Sys2Proof.Machine

/-- PUSH (R87): decrement SP, then store `x[r]`, read after the decrement; `adv(2)`. -/
def execPush (r : Byte) (s : State) : Host.Outcome State Fault Refusal :=
  commit s do
    let r ← regOperand s r
    let s1 ← decSp s
    .ok (controlFlow (.seq 2) (s1.writeByte s1.sp (s1.reg r)))

/-- POP (R88): read at SP, write `x[r]`, then increment `x[7]`, re-read after that write; `adv(2)`. -/
def execPop (r : Byte) (s : State) : Host.Outcome State Fault Refusal :=
  commit s do
    let r ← regOperand s r
    let s1 := s.setReg r (s.readByte s.sp)
    let s2 ← incSp s1
    .ok (controlFlow (.seq 2) s2)

end Sys2Proof.Machine
end

