-- ==== Sys2Proof/Machine/Fetch.lean ====
section
/-! DEFINITION. The fetch_unit (40_fetch_and_dispatch.md R64, R66 to R68) and the placing of bytes where it fetches. -/

namespace Sys2Proof.Machine

/-- Read byte `k` of the instruction at PC, its address through `chk` (R68). -/
def fetchByte (s : State) (k : Nat) : Except ErrorRecord Byte := do
  let a ← chk s (s.pc + k)
  .ok (s.readByte a)

/-- Fetch and decode the instruction at PC (R66, R67, R68): the PC check first, then the opcode, then the operand bytes
the instruction has and no others. -/
def fetchInstr (s : State) : Except ErrorRecord Instr :=
  if 255 < s.pc then .error (.memoryBoundsError s.pc s.pc)
  else decodeWith s.params.jumpsAsUnknown (fun op => .unknownInstruction op s.pc) (fetchByte s)

/-- Store bytes from the cell with key `k` upward, modulo 256. -/
def placeBytes (k : Nat) : List Byte → State → State
  | [], s => s
  | b :: bs, s => placeBytes (k + 1) bs (s.writeByte (BitVec.ofNat 8 k) b)

/-- Where the next instruction can be placed so that its three bytes can be fetched: PC, or 0 where under the state's
policy no three bytes lie at PC. -/
def fetchBase (s : State) : Nat :=
  match s.params.boundsPolicy with
  | .wrap => if s.pc ≤ 255 then s.pc else 0
  | .fault => if s.pc ≤ 253 then s.pc else 0

end Sys2Proof.Machine
end

