-- ==== Sys2Proof/Machine/Step.lean ====
section
/-! DEFINITION. One step of the core (40_fetch_and_dispatch.md R65, R72), and a state whose next step runs a given word
of the opcode table. -/

namespace Sys2Proof.Machine

/-- One step (R72): only while Running (R65); fetch and decode, then execute; an error of the fetch is taken as any
error of a step is (R101). -/
def step (s : State) : Host.Outcome State Fault Refusal :=
  match s.status with
  | .running =>
    match fetchInstr s with
    | .ok i => exec i s
    | .error e => .next (takeFault e s)
  | .stopped => .fault .notRunning
  | .halted => .fault .notRunning
  | .faulted _ => .fault .notRunning

/-- `s` with the instruction of a word of spec/opcode_table.json stored where the next step fetches, and running. It
stands for the host's `load` and the beginning of its `run()` (R117, R118, R120; notes/assumptions/4.md). PC is moved,
to 0, only where no three bytes can be fetched at it. -/
def State.withFetchWord (s : State) (nbits w : Nat) : State :=
  resume (placeBytes (fetchBase s) (tableWordBytes nbits w) (s.setPc (fetchBase s)))

end Sys2Proof.Machine
end

