-- ==== Sys2Proof/Machine/HostPort.lean ====
section
/-! DEFINITION. The host's actions (70_reset_and_hazards.md R117 to R120, R125; 60_exceptions.md R114). They are not
steps: the host acts only while the core is not running. Construction is `State.construct`. -/

namespace Sys2Proof.Machine

/-- Why an action of the host gives no result. -/
inductive HostError where
  /-- The action's precondition `status ≠ Running` does not hold (R117, R119). Safe. -/
  | coreRunning
  /-- The action fails with an error of R100: LoadError. -/
  | failed (e : ErrorRecord)
  deriving DecidableEq, Repr

/-- Copy bytes into memory from the cell with key `k` upward, in order (R117). -/
def Memory.copyFrom (k : Nat) : List Byte → Memory → Memory
  | [], m => m
  | b :: bs, m => Memory.copyFrom (k + 1) bs (Memory.writeAt m k b)

/-- `load(bytes)` (R117): the length check comes before any copy; only memory changes. -/
def load (bytes : List Byte) (s : State) : Except HostError State :=
  if s.status = .running then .error .coreRunning
  else if memSize < bytes.length then .error (.failed (.loadError bytes.length))
  else .ok { s with mem := Memory.copyFrom 0 bytes s.mem }

/-- The beginning of `run()` (R118, R119): allowed in any status other than Running; sets Running. -/
def startRun (s : State) : Except HostError State :=
  if s.status = .running then .error .coreRunning else .ok (resume s)

/-- The loop of `run()` (R73, R118), at most `n` steps: `some t` when it ended in the state `t`, `none` when `n` steps
did not end it. A run need not end (R73). -/
def runLoop : Nat → State → Option State
  | 0, s => if s.status = .running then none else some s
  | n + 1, s =>
    if s.status = .running then
      match step s with
      | .next t => runLoop n t
      | .fault _ => none
      | .refused _ => none
    else some s

/-- What `run()` returns (R114, R118). -/
inductive RunResult where
  | success
  | executionError (e : ErrorRecord)
  deriving DecidableEq, Repr

/-- The result a final status gives: success for Halted, ExecutionError for Faulted, none while there is no end. -/
def runResult (s : State) : Option RunResult :=
  match s.status with
  | .halted => some .success
  | .faulted e => some (.executionError e)
  | .stopped => none
  | .running => none

/-- `run()` given at most `n` steps (R118): the final state and the result, if the run ends within them. -/
def run (n : Nat) (s : State) : Except HostError (Option (State × RunResult)) := do
  let s1 ← startRun s
  .ok do
    let t ← runLoop n s1
    let r ← runResult t
    some (t, r)

/-- `registers()`: R0..R7, only while not Running (R119). -/
def registers (s : State) : Except HostError (List Byte) :=
  if s.status = .running then .error .coreRunning
  else .ok ([Reg.r0, .r1, .r2, .r3, .r4, .r5, .r6, .r7].map s.reg)

/-- `memory()`: M[0..255], only while not Running (R119). -/
def memory (s : State) : Except HostError (List Byte) :=
  if s.status = .running then .error .coreRunning
  else .ok ((List.range memSize).map (fun a => s.readByte (BitVec.ofNat 8 a)))

/-- Reading `out`, at any time (R119). -/
def output (s : State) : List Byte := s.out

end Sys2Proof.Machine
end

