-- ==== Sys2Proof/Safety.lean ====
section
/-! DEFINITION. The terms claims use: frames, code at the program counter, the invariant of the machine, reachable
states, and a run that never faults. -/

namespace Sys2Proof.Machine

/-! ## Frames -/

/-- Every register but those listed is unchanged. -/
abbrev SameRegsExcept (rs : List Reg) (s t : State) : Prop := ∀ q : Reg, q ∉ rs → t.reg q = s.reg q

/-- Every byte of memory is unchanged. -/
abbrev SameMemory (s t : State) : Prop := ∀ a : Byte, t.readByte a = s.readByte a

/-- Every byte of memory but the one at `a` is unchanged. -/
abbrev SameMemoryExcept (a : Byte) (s t : State) : Prop := ∀ b : Byte, b ≠ a → t.readByte b = s.readByte b

/-- Nothing but the listed registers and PC has changed: every other register, FL, status, `out`, every byte of memory
and the parameters are as before. -/
abbrev OnlyRegsAndPc (rs : List Reg) (s t : State) : Prop :=
  SameRegsExcept rs s t ∧ t.fl = s.fl ∧ t.status = s.status ∧ t.out = s.out ∧ SameMemory s t ∧ t.params = s.params

/-- The step or instruction took the error `e`: the next state is the state it began in, with status `Faulted(e)` and
nothing else changed (R101). -/
abbrev Raises (o : Host.Outcome State Fault Refusal) (s : State) (e : ErrorRecord) : Prop :=
  o = .next { s with status := .faulted e }

/-- The PC after a sequential advance by `n` bytes, written out from R9. -/
abbrev pcAfter (s : State) (n : Nat) : Nat :=
  if s.params.boundsPolicy = .wrap then (s.pc + n) % 256 else s.pc + n

/-- The registers an instruction may write (R18): the destination operand, and R7 where the instruction uses SP. An
operand byte that names no register adds none. -/
def writtenRegs : Instr → List Reg
  | .ldi r _ => (Reg.ofByte? r).toList
  | .mul a _ => (Reg.ofByte? a).toList
  | .add a _ => (Reg.ofByte? a).toList
  | .pop r => (Reg.ofByte? r).toList ++ [.r7]
  | .push _ => [.r7]
  | .call _ => [.r7]
  | .ret => [.r7]
  | .hlt => []
  | .prn _ => []
  | .cmp _ _ => []
  | .jmp _ => []
  | .jeq _ => []
  | .jne _ => []

/-! ## Code -/

/-- The bytes `bs` lie at PC, where a fetch can read them: in ascending addresses (R38), not past 255 under `Fault`
and modulo 256 under `Wrap` (R68). -/
abbrev CodeAt (s : State) (bs : List Byte) : Prop :=
  s.pc ≤ 255 ∧
  ∀ k : Fin bs.length,
    (s.params.boundsPolicy = .fault → s.pc + k.val ≤ 255) ∧
    s.readByte (BitVec.ofNat 8 (s.pc + k.val)) = bs[k]

/-! ## The invariant -/

/-- PC is 0..255 under `Wrap` and 0..256 under `Fault` (R22). -/
abbrev PcInRange (s : State) : Prop :=
  s.pc ≤ 256 ∧ (s.params.boundsPolicy = .wrap → s.pc ≤ 255)

/-- FL is 0 or has exactly one of E, G, L set, and bits 7:3 are 0 (R24, R83). -/
abbrev FlagsLegal (s : State) : Prop := s.fl = 0 ∨ s.fl = 1 ∨ s.fl = 2 ∨ s.fl = 4

/-- The records a step can leave in a state: `pc` is the state's own PC; a MemoryBoundsError names address 256, a
StackOverflow SP 0 and a StackUnderflow SP 255, and these three come only under `Fault`; an InvalidRegister's index is
8 or more; the last two kinds never come from a step (R100, R101). -/
abbrev RecordLegal (s : State) : ErrorRecord → Prop
  | .unknownInstruction _ p => p = s.pc
  | .memoryBoundsError a p => a = 256 ∧ p = s.pc ∧ s.params.boundsPolicy = .fault
  | .stackOverflow v p => v = 0 ∧ p = s.pc ∧ s.params.boundsPolicy = .fault
  | .stackUnderflow v p => v = 255 ∧ p = s.pc ∧ s.params.boundsPolicy = .fault
  | .invalidRegister i p => 8 ≤ i.toNat ∧ p = s.pc
  | .unsupportedAluOperation _ _ => False
  | .loadError _ => False

/-- A Faulted status holds a legal record. -/
abbrev StatusLegal (s : State) : Prop :=
  match s.status with
  | .faulted e => RecordLegal s e
  | .stopped | .running | .halted => True

/-- The invariant of the machine. -/
structure Inv (s : State) : Prop where
  mem : s.mem.wf = true
  pc : PcInRange s
  fl : FlagsLegal s
  status : StatusLegal s

/-! ## Runs -/

/-- The states the machine can be in: constructed with any parameters, and then any of the host's actions and the
core's steps (R115, R117, R118, R72). -/
inductive Reachable : State → Prop
  | construct (p : Params) : Reachable (State.construct p)
  | load {s t : State} (bytes : List Byte) : Reachable s → Sys2Proof.Machine.load bytes s = .ok t → Reachable t
  | startRun {s t : State} : Reachable s → Sys2Proof.Machine.startRun s = .ok t → Reachable t
  | step {s t : State} : Reachable s → Sys2Proof.Machine.step s = .next t → Reachable t

/-- A status that is no fault. -/
def Status.isFaulted : Status → Bool
  | .faulted _ => true
  | .stopped | .running | .halted => false

/-- A safe run: however far the core steps from `s`, it has not faulted. -/
def NeverFaults (s : State) : Prop :=
  ∀ n t, Sys2Proof.core.run n s = .next t → t.status.isFaulted = false

end Sys2Proof.Machine
end

