-- ==== Sys2Proof/Certificates/Slice0/Obligations.lean ====
section
/-! DEFINITION. The statements for the provers. Each docstring names the rule of spec/ it formalises; where the rule
rests on a decision D<n> of spec/92_eei_decisions.md (the spec's own choice) or is marked derived there, it says so. -/

open Sys2Proof Sys2Proof.Machine

/-! ## Encoding and decoder -/

/-- R63: the four instructions of the source's worked example, written out bit by bit, decode to the instructions they
stand for and are their encodings. -/
def Obligations.WorkedExampleBytes : Prop :=
  (decode false [0b10000010, 0b00000000, 0b00001000] = .ok (.ldi Reg.r0.toByte 8, []) ∧
    encode (.ldi Reg.r0.toByte 8) = [0x82, 0x00, 0x08]) ∧
  (decode false [0b10100010, 0b00000000, 0b00000001] = .ok (.mul Reg.r0.toByte Reg.r1.toByte, []) ∧
    encode (.mul Reg.r0.toByte Reg.r1.toByte) = [0xA2, 0x00, 0x01]) ∧
  (decode false [0b01000111, 0b00000000] = .ok (.prn Reg.r0.toByte, []) ∧
    encode (.prn Reg.r0.toByte) = [0x47, 0x00]) ∧
  (decode false [0b00000001] = .ok (.hlt, []) ∧ encode .hlt = [0x01])

/-- The rows of R53 as the decoder unit of R59 and R60 (D18, D23) gives them: mnemonic, format, length, ALU select,
whether it sets PC, whether it halts. Derived: the unit partition and the select's coding are the spec's choice. -/
def Obligations.DecoderGivesOpcodeMap : Prop :=
  decoder false 0x01 = some ⟨0x01, .hlt, .n, 1, none, false, true⟩ ∧
  decoder false 0x82 = some ⟨0x82, .ldi, .ri, 3, none, false, false⟩ ∧
  decoder false 0x47 = some ⟨0x47, .prn, .r, 2, none, false, false⟩ ∧
  decoder false 0xA2 = some ⟨0xA2, .mul, .rr, 3, some 1, false, false⟩ ∧
  decoder false 0xA0 = some ⟨0xA0, .add, .rr, 3, some 0, false, false⟩ ∧
  decoder false 0xA7 = some ⟨0xA7, .cmp, .rr, 3, some 2, false, false⟩ ∧
  decoder false 0x45 = some ⟨0x45, .push, .r, 2, none, false, false⟩ ∧
  decoder false 0x46 = some ⟨0x46, .pop, .r, 2, none, false, false⟩ ∧
  decoder false 0x50 = some ⟨0x50, .call, .r, 2, none, true, false⟩ ∧
  decoder false 0x11 = some ⟨0x11, .ret, .n, 1, none, true, false⟩ ∧
  decoder false 0x54 = some ⟨0x54, .jmp, .r, 2, none, true, false⟩ ∧
  decoder false 0x55 = some ⟨0x55, .jeq, .r, 2, none, true, false⟩ ∧
  decoder false 0x56 = some ⟨0x56, .jne, .r, 2, none, true, false⟩

/-- R48: an instruction is 1, 2 or 3 bytes: the opcode byte, then one whole byte for each operand. Two instructions with
the same opcode byte have the same length, the one the table gives the opcode. -/
def Obligations.LengthFixedByOpcode : Prop :=
  ∀ (jumpsAsUnknown : Bool) (op : Byte) (xs ys xs' ys' : List Byte) (i j : Instr),
    decode jumpsAsUnknown (op :: xs) = .ok (i, xs') → decode jumpsAsUnknown (op :: ys) = .ok (j, ys') →
    ∃ row, row ∈ opcodeTable ∧ row.opcode = op ∧ (row.len = 1 ∨ row.len = 2 ∨ row.len = 3) ∧
      ∃ operandsI operandsJ, encode i = op :: operandsI ∧ encode j = op :: operandsJ ∧
        1 + operandsI.length = row.len ∧ 1 + operandsJ.length = row.len ∧
        xs = operandsI ++ xs' ∧ ys = operandsJ ++ ys'

/-- Decode and encode agree on every instruction, every operand byte at every value, whatever bytes follow; with
`JUMPS_AS_UNKNOWN` on every instruction but the three jumps. Derived from the formats of R49 and the map of R53. -/
def Obligations.DecodeOfEncode : Prop :=
  ∀ (jumpsAsUnknown : Bool) (i : Instr) (rest : List Byte),
    (jumpsAsUnknown = true → i.mnemonic ≠ .jmp ∧ i.mnemonic ≠ .jeq ∧ i.mnemonic ≠ .jne) →
    decode jumpsAsUnknown (encode i ++ rest) = .ok (i, rest)

/-- Bytes that decode are the encoding of what they decode to: each instruction has one encoding, and no bit of it is
ignored. Derived from R49, R50 and R53. -/
def Obligations.DecodedBytesAreTheEncoding : Prop :=
  ∀ (jumpsAsUnknown : Bool) (bytes rest : List Byte) (i : Instr),
    decode jumpsAsUnknown bytes = .ok (i, rest) → bytes = encode i ++ rest

/-! ## The step -/

/-- From R72 (derived there): where the bytes at PC are an instruction, one step is that instruction's execution at that
state, with nothing around it: PC is written by the instruction itself. Also across the wrap of addresses under `Wrap`,
and for operand bytes that name no register. -/
def Obligations.StepRunsDecodedInstruction : Prop :=
  ∀ (s : State) (bytes : List Byte) (i : Instr), s.status = .running → CodeAt s bytes →
    decode s.params.jumpsAsUnknown bytes = .ok (i, []) → step s = exec i s

/-- R67: the step raises UnknownInstruction(opcode, PC), with nothing changed and PC at the opcode's own address, where
the decoder has no row for the opcode byte at PC; where it has one, no step raises UnknownInstruction. -/
def Obligations.UnknownOpcodeRaises : Prop :=
  ∀ (s : State) (ir : Byte), s.status = .running → CodeAt s [ir] →
    (decoder s.params.jumpsAsUnknown ir = none → Raises (step s) s (.unknownInstruction ir s.pc)) ∧
    (∀ row, decoder s.params.jumpsAsUnknown ir = some row →
      ∀ t op p, step s = .next t → t.status ≠ .faulted (.unknownInstruction op p))

/-- From R56, R97 (D6, the spec's choice): a step at an opcode byte other than the 13 of the map raises UnknownInstruction
and changes nothing else, and with `JUMPS_AS_UNKNOWN` so does one at 0x54, 0x55 or 0x56. -/
def Obligations.IllegalOpcodesRaise : Prop :=
  ∀ (s : State) (ir : Byte), s.status = .running → CodeAt s [ir] →
    ir ∉ [0x01, 0x11, 0x45, 0x46, 0x47, 0x50, 0x54, 0x55, 0x56, 0x82, 0xA0, 0xA2, 0xA7] ∨
      (s.params.jumpsAsUnknown = true ∧ ir ∈ [0x54, 0x55, 0x56]) →
    Raises (step s) s (.unknownInstruction ir s.pc)

/-- From R66 (D3, D14, the spec's choice): a fetch at a PC past 255 raises MemoryBoundsError(addr = PC, pc = PC). -/
def Obligations.FetchPastMemoryRaises : Prop :=
  ∀ s : State, s.status = .running → 255 < s.pc → Raises (step s) s (.memoryBoundsError s.pc s.pc)

/-- From R68, R102 (D3, D4, D19, the spec's choice): under `Fault`, an instruction whose last byte would lie past 255 raises
MemoryBoundsError at address 256, whatever its register operand bytes are. -/
def Obligations.OperandPastMemoryRaises : Prop :=
  ∀ (s : State) (ir : Byte) (row : OpcodeRow), s.status = .running → s.params.boundsPolicy = .fault → CodeAt s [ir] →
    decoder s.params.jumpsAsUnknown ir = some row → 256 < s.pc + row.len →
    Raises (step s) s (.memoryBoundsError 256 s.pc)

/-- From R65, R73 (D21, the spec's choice): while Running the core always has a step, and it never refuses an instruction; in
every other status it takes none (the named stop `notRunning` is the model's, notes/assumptions/5.md). -/
def Obligations.StepsExactlyWhileRunning : Prop :=
  ∀ s : State, (s.status = .running → ∃ t, step s = .next t) ∧ (s.status ≠ .running → step s = .fault .notRunning)

/-- From R101 (D11, the spec's choice): faults are precise. If a step leaves the status Faulted, then registers, PC, FL,
memory, `out` and parameters are what they were before the step. -/
def Obligations.FaultsArePrecise : Prop :=
  ∀ (s t : State) (e : ErrorRecord), step s = .next t → t.status = .faulted e →
    t.regs = s.regs ∧ t.pc = s.pc ∧ t.fl = s.fl ∧ t.mem = s.mem ∧ t.out = s.out ∧ t.params = s.params

/-- R84: the decoder selects only ADD, MUL or CMP of the alu, so no step ever raises UnsupportedAluOperation; and the
alu gives no value for another select. -/
def Obligations.UnsupportedAluUnreachable : Prop :=
  (∀ (jumpsAsUnknown : Bool) (ir : Byte) (row : OpcodeRow) (sel : BitVec 2),
    decoder jumpsAsUnknown ir = some row → row.aluOp = some sel → sel = aluAdd ∨ sel = aluMul ∨ sel = aluCmp) ∧
  (∀ (s t : State) (op : BitVec 2) (p : Nat),
    step s = .next t → t.status ≠ .faulted (.unsupportedAluOperation op p)) ∧
  (∀ (sel : BitVec 2) (a b : Byte) (p : Nat), sel ≠ aluAdd → sel ≠ aluMul → sel ≠ aluCmp →
    alu sel a b p = .error (.unsupportedAluOperation sel p))

/-- From R51, R69 (D10, the spec's choice): a register operand byte of 8 or more raises InvalidRegister(index = byte, PC),
for every instruction that has one; regA is checked before regB. -/
def Obligations.InvalidRegisterRaises : Prop :=
  ∀ (s : State) (a b : Byte),
    (8 ≤ a.toNat →
      ∀ i ∈ [Instr.ldi a b, .prn a, .mul a b, .add a b, .cmp a b, .push a, .pop a, .call a, .jmp a, .jeq a, .jne a],
        Raises (exec i s) s (.invalidRegister a s.pc)) ∧
    (a.toNat < 8 → 8 ≤ b.toNat →
      ∀ i ∈ [Instr.mul a b, .add a b, .cmp a b], Raises (exec i s) s (.invalidRegister b s.pc))

/-! ## HLT, LDI, PRN -/

/-- From R75 (D9, the spec's choice): HLT sets Halted; PC stays at the HLT, and nothing else changes. -/
def Obligations.HltHalts : Prop :=
  ∀ s : State, exec .hlt s = .next { s with status := .halted }

/-- R52, with the effect of R76: LDI puts the immediate byte, any value, unchanged into the register, advances by 3 and
changes nothing else. -/
def Obligations.LdiLoadsImmediateUnchanged : Prop :=
  ∀ (s : State) (r : Reg) (v : Byte),
    ∃ t, exec (.ldi r.toByte v) s = .next t ∧ t.reg r = v ∧ t.pc = pcAfter s 3 ∧ OnlyRegsAndPc [r] s t

/-- R76, the whole rule as one step on the bytes 0x82, reg, imm8 at PC: the register, PC and frame; InvalidRegister;
MemoryBoundsError(256) for an LDI at 254 or 255 under `Fault`; after an LDI at 253 the next fetch faults under `Fault`,
and under `Wrap` PC is 0. -/
def Obligations.LdiStep : Prop :=
  ∀ s : State, s.status = .running →
    (∀ (r : Reg) (v : Byte), CodeAt s [0x82, r.toByte, v] →
      ∃ t, step s = .next t ∧ t.reg r = v ∧ t.pc = pcAfter s 3 ∧ OnlyRegsAndPc [r] s t ∧
        (r = .r7 → t.sp = v) ∧
        (s.params.boundsPolicy = .fault → s.pc = 253 → t.pc = 256 ∧ Raises (step t) t (.memoryBoundsError 256 256)) ∧
        (s.params.boundsPolicy = .wrap → s.pc = 253 → t.pc = 0)) ∧
    (∀ b v : Byte, CodeAt s [0x82, b, v] → 8 ≤ b.toNat → Raises (step s) s (.invalidRegister b s.pc)) ∧
    (s.params.boundsPolicy = .fault → CodeAt s [0x82] → s.pc = 254 ∨ s.pc = 255 →
      Raises (step s) s (.memoryBoundsError 256 s.pc))

/-- From R77 (D13, the spec's choice): PRN appends the register's byte to `out`, advances by 2 and changes nothing else. -/
def Obligations.PrnAppendsRegister : Prop :=
  ∀ (s : State) (r : Reg),
    ∃ t, exec (.prn r.toByte) s = .next t ∧ t.out = s.out ++ [s.reg r] ∧ t.pc = pcAfter s 2 ∧
      SameRegsExcept [] s t ∧ t.fl = s.fl ∧ t.status = s.status ∧ SameMemory s t ∧ t.params = s.params

/-! ## MUL, ADD, CMP -/

/-- From R79, R81 (D1, the spec's choice): MUL writes the product modulo 256 to regA, advances by 3 and changes nothing
else, FL among it; regA = regB squares. -/
def Obligations.MulWrapsModulo256 : Prop :=
  ∀ (s : State) (ra rb : Reg),
    ∃ t, exec (.mul ra.toByte rb.toByte) s = .next t ∧
      (t.reg ra).toNat = ((s.reg ra).toNat * (s.reg rb).toNat) % 256 ∧ t.pc = pcAfter s 3 ∧ OnlyRegsAndPc [ra] s t

/-- From R79, R82 (D1, the spec's choice): ADD writes the sum modulo 256 to regA, advances by 3 and changes nothing else, FL
among it; regA = regB doubles. -/
def Obligations.AddWrapsModulo256 : Prop :=
  ∀ (s : State) (ra rb : Reg),
    ∃ t, exec (.add ra.toByte rb.toByte) s = .next t ∧
      (t.reg ra).toNat = ((s.reg ra).toNat + (s.reg rb).toNat) % 256 ∧ t.pc = pcAfter s 3 ∧ OnlyRegsAndPc [ra] s t

/-- From R80 (D1, the spec's choice): the results of ADD and MUL are also those of two's-complement signed arithmetic modulo
256. -/
def Obligations.AddMulAgreeWithSigned : Prop :=
  ∀ (s t u : State) (ra rb : Reg),
    exec (.add ra.toByte rb.toByte) s = .next t → exec (.mul ra.toByte rb.toByte) s = .next u →
    (t.reg ra).toInt = Int.bmod ((s.reg ra).toInt + (s.reg rb).toInt) 256 ∧
    (u.reg ra).toInt = Int.bmod ((s.reg ra).toInt * (s.reg rb).toInt) 256

/-- From R83 (D7, the spec's choice): CMP compares regA against regB unsigned: E, G or L, exactly one, and bits 7:3 of FL
zero; it advances by 3 and changes no register and nothing else. -/
def Obligations.CmpSetsOneFlag : Prop :=
  ∀ (s : State) (ra rb : Reg),
    ∃ t, exec (.cmp ra.toByte rb.toByte) s = .next t ∧
      ((s.reg ra).toNat = (s.reg rb).toNat → t.fl = 0x01) ∧
      ((s.reg rb).toNat < (s.reg ra).toNat → t.fl = 0x02) ∧
      ((s.reg ra).toNat < (s.reg rb).toNat → t.fl = 0x04) ∧
      t.pc = pcAfter s 3 ∧ SameRegsExcept [] s t ∧ t.status = s.status ∧ t.out = s.out ∧ SameMemory s t ∧
      t.params = s.params

/-! ## PUSH, POP -/

/-- From R87 (D5, D16, the spec's choice): PUSH decrements SP, then stores the register, read after the decrement, at the new
SP; under `Wrap` also from SP = 0. It advances by 2 and changes nothing else. -/
def Obligations.PushStoresBelowSp : Prop :=
  ∀ (s : State) (r : Reg), s.mem.wf = true → s.params.boundsPolicy = .wrap ∨ s.sp ≠ 0 →
    ∃ t, exec (.push r.toByte) s = .next t ∧ t.sp = s.sp - 1 ∧
      t.readByte (s.sp - 1) = (if r = .r7 then s.sp - 1 else s.reg r) ∧ SameMemoryExcept (s.sp - 1) s t ∧
      SameRegsExcept [.r7] s t ∧ t.pc = pcAfter s 2 ∧ t.fl = s.fl ∧ t.status = s.status ∧ t.out = s.out ∧
      t.params = s.params

/-- From R88 (D5, D16, the spec's choice): POP reads at SP, writes the register, then increments R7 as that write left it, so
POP R7 gives the popped byte plus 1. It advances by 2 and changes nothing else, the cell read among it. -/
def Obligations.PopLoadsAtSp : Prop :=
  ∀ (s : State) (r : Reg),
    s.params.boundsPolicy = .wrap ∨ (if r = .r7 then s.readByte s.sp else s.sp) ≠ 255 →
    ∃ t, exec (.pop r.toByte) s = .next t ∧
      (r ≠ .r7 → t.reg r = s.readByte s.sp ∧ t.sp = s.sp + 1) ∧ (r = .r7 → t.sp = s.readByte s.sp + 1) ∧
      t.pc = pcAfter s 2 ∧ OnlyRegsAndPc [r, .r7] s t

/-- From R86, R87, R88, R93 (D5, the spec's choice): under `Fault` PUSH from SP = 0 raises StackOverflow(0); POP and RET that
would increment 255 raise StackUnderflow(255), POP R7 by the popped byte. Nothing changes. -/
def Obligations.StackEndsRaiseUnderFault : Prop :=
  ∀ (s : State) (r : Reg), s.params.boundsPolicy = .fault →
    (s.sp = 0 → Raises (exec (.push r.toByte) s) s (.stackOverflow 0 s.pc)) ∧
    ((if r = .r7 then s.readByte s.sp else s.sp) = 255 →
      Raises (exec (.pop r.toByte) s) s (.stackUnderflow 255 s.pc)) ∧
    (s.sp = 255 → Raises (exec .ret s) s (.stackUnderflow 255 s.pc))

/-- From R89 (derived there): PUSH then POP of the same register, R7 too, restores every register and leaves SP as before,
whenever the PUSH does not fault. -/
def Obligations.PushThenPopRestores : Prop :=
  ∀ (s : State) (r : Reg), s.mem.wf = true → s.params.boundsPolicy = .wrap ∨ s.sp ≠ 0 →
    ∃ t u, exec (.push r.toByte) s = .next t ∧ exec (.pop r.toByte) t = .next u ∧ SameRegsExcept [] s u

/-! ## CALL, RET, JMP, JEQ, JNE -/

/-- From R92 (D5, D15, D16, the spec's choice): CALL stores the return address PC + 2 (modulo 256 under `Wrap`) below SP,
moves SP there and goes to the register's value, read after the push, so CALL R7 goes to the new SP. Nothing else
changes. -/
def Obligations.CallPushesReturnAddress : Prop :=
  ∀ (s : State) (r : Reg), s.mem.wf = true → s.params.boundsPolicy = .wrap ∨ (s.pc ≤ 253 ∧ s.sp ≠ 0) →
    ∃ t, exec (.call r.toByte) s = .next t ∧ t.sp = s.sp - 1 ∧
      (t.readByte (s.sp - 1)).toNat = (s.pc + 2) % 256 ∧ SameMemoryExcept (s.sp - 1) s t ∧
      t.pc = (if r = .r7 then s.sp - 1 else s.reg r).toNat ∧
      SameRegsExcept [.r7] s t ∧ t.fl = s.fl ∧ t.status = s.status ∧ t.out = s.out ∧ t.params = s.params

/-- From R92, R102 (D15, D19, the spec's choice): under `Fault` a CALL whose return address would pass 255 raises
MemoryBoundsError for it, before the stack check; otherwise from SP = 0 it raises StackOverflow(0). Nothing changes. -/
def Obligations.CallRaisesInOrder : Prop :=
  ∀ (s : State) (r : Reg), s.params.boundsPolicy = .fault →
    (253 < s.pc → Raises (exec (.call r.toByte) s) s (.memoryBoundsError (s.pc + 2) s.pc)) ∧
    (s.pc ≤ 253 → s.sp = 0 → Raises (exec (.call r.toByte) s) s (.stackOverflow 0 s.pc))

/-- From R93 (D5, the spec's choice): RET goes to the byte at SP and increments SP; nothing else changes. -/
def Obligations.RetPopsPc : Prop :=
  ∀ s : State, s.params.boundsPolicy = .wrap ∨ s.sp ≠ 255 →
    ∃ t, exec .ret s = .next t ∧ t.pc = (s.readByte s.sp).toNat ∧ t.sp = s.sp + 1 ∧ OnlyRegsAndPc [.r7] s t

/-- From R94 (D6, the spec's choice): JMP goes to the register's value; nothing but PC changes. -/
def Obligations.JmpGoesToRegister : Prop :=
  ∀ (s : State) (r : Reg),
    ∃ t, exec (.jmp r.toByte) s = .next t ∧ t.pc = (s.reg r).toNat ∧ OnlyRegsAndPc [] s t

/-- From R95, R96 (D6, the spec's choice): JEQ goes to the register's value if bit 0 of FL is set, JNE if it is clear, and
each else advances by 2; nothing but PC changes. -/
def Obligations.ConditionalJumpsFollowE : Prop :=
  ∀ (s : State) (r : Reg),
    (∃ t, exec (.jeq r.toByte) s = .next t ∧
      t.pc = (if s.fl.getLsbD 0 = true then (s.reg r).toNat else pcAfter s 2) ∧ OnlyRegsAndPc [] s t) ∧
    (∃ t, exec (.jne r.toByte) s = .next t ∧
      t.pc = (if s.fl.getLsbD 0 = true then pcAfter s 2 else (s.reg r).toNat) ∧ OnlyRegsAndPc [] s t)

/-- From R98 (derived there): a CALL that does not fault, then a RET at its target, comes back to the byte after the CALL
with every register, SP too, as before. -/
def Obligations.CallThenRetReturns : Prop :=
  ∀ (s : State) (r : Reg), s.mem.wf = true → s.params.boundsPolicy = .wrap ∨ (s.pc ≤ 253 ∧ s.sp ≠ 0) →
    ∃ t u, exec (.call r.toByte) s = .next t ∧ exec .ret t = .next u ∧ u.pc = (s.pc + 2) % 256 ∧
      SameRegsExcept [] s u ∧ u.fl = s.fl ∧ u.status = s.status ∧ u.out = s.out

/-! ## Frames over all instructions -/

/-- From R36 (derived there): no instruction but PUSH and CALL changes a byte of memory, whatever its operands. -/
def Obligations.OnlyPushAndCallStore : Prop :=
  ∀ (i : Instr) (s t : State), exec i s = .next t → (∀ r, i ≠ .push r ∧ i ≠ .call r) → SameMemory s t

/-- From R36, R87, R92 (D5, the spec's choice): PUSH and CALL store at the address `sp_dec` gives for SP and nowhere else;
where `sp_dec` raises, they change no byte. -/
def Obligations.PushAndCallStoreOnlyAtNewSp : Prop :=
  ∀ (r : Byte) (s t : State), exec (.push r) s = .next t ∨ exec (.call r) s = .next t →
    (∀ a, spDec s s.sp = .ok a → SameMemoryExcept a s t) ∧ (∀ e, spDec s s.sp = .error e → SameMemory s t)

/-- From R18 (derived there): an instruction changes no register but its destination operand, and R7 where it uses SP. -/
def Obligations.RegistersOutsideDestinationKept : Prop :=
  ∀ (i : Instr) (s t : State), exec i s = .next t → SameRegsExcept (writtenRegs i) s t

/-- From R25 (derived there): no instruction but CMP changes FL. -/
def Obligations.OnlyCmpWritesFlags : Prop :=
  ∀ (i : Instr) (s t : State), exec i s = .next t → (∀ a b, i ≠ .cmp a b) → t.fl = s.fl

/-- From R25 (derived there): instructions read FL at most in its bit E. With any FL of the same bit 0, every instruction does
the same to everything else: the two next states differ at most in FL. -/
def Obligations.OnlyEqualBitIsRead : Prop :=
  ∀ (i : Instr) (s t : State) (f : Byte), exec i s = .next t → f.getLsbD 0 = s.fl.getLsbD 0 →
    ∃ u, exec i { s with fl := f } = .next u ∧
      u.regs = t.regs ∧ u.pc = t.pc ∧ u.status = t.status ∧ u.out = t.out ∧ u.mem = t.mem ∧ u.params = t.params

/-- From R30 (D13, the spec's choice): a step leaves `out` as it was or appends one byte, and it appends only where the
instruction at PC is a PRN. -/
def Obligations.OnlyPrnAppendsOneByte : Prop :=
  ∀ s t : State, step s = .next t →
    t.out = s.out ∨ ∃ b v, fetchInstr s = .ok (.prn b) ∧ t.out = s.out ++ [v]

/-- From R108, R101 (D11, the spec's choice): the status after a step of a running core is Running, or Halted where the
instruction at PC is HLT, or Faulted. -/
def Obligations.OnlyHltAndFaultsEndARun : Prop :=
  ∀ s t : State, step s = .next t →
    (t.status = .running ∧ fetchInstr s ≠ .ok .hlt) ∨ (t.status = .halted ∧ fetchInstr s = .ok .hlt) ∨
      ∃ e, t.status = .faulted e

/-- From R71 (D9, the spec's choice): a step of LDI, PRN, ADD, MUL, CMP, PUSH or POP that does not fault advances PC by the
instruction's length, the length of its encoding. -/
def Obligations.PcAdvancesByLength : Prop :=
  ∀ (i : Instr) (s t : State), s.status = .running → exec i s = .next t → t.status = .running →
    i.mnemonic ∈ [Mnemonic.ldi, .prn, .add, .mul, .cmp, .push, .pop] → t.pc = pcAfter s (encode i).length

/-- The model's own field, DESIGN CHOICE of notes/assumptions/1.md: no step and no action of the host changes the
parameters of R5. -/
def Obligations.ParametersNeverChange : Prop :=
  (∀ s t : State, step s = .next t → t.params = s.params) ∧
  (∀ (bytes : List Byte) (s t : State), load bytes s = .ok t → t.params = s.params) ∧
  (∀ s t : State, startRun s = .ok t → t.params = s.params)

/-- From R46 (D20, the spec's choice): a PUSH that writes the cell right after itself changes the very next instruction: with
a register other than R7 that holds 0x01 (HLT), the next step halts there. -/
def Obligations.PushIntoCodeRunsNext : Prop :=
  ∀ (s : State) (r : Reg), s.status = .running → s.mem.wf = true → CodeAt s [0x45, r.toByte] → r ≠ .r7 →
    s.reg r = 0x01 → s.sp.toNat = s.pc + 3 →
    ∃ t, step s = .next t ∧ t.pc = s.pc + 2 ∧ step t = .next { t with status := .halted }

/-! ## Invariants -/

/-- The invariant holds at construction, for every value of the parameters. -/
def Obligations.ConstructedStateMeetsInv : Prop :=
  ∀ p : Params, Inv (State.construct p)

/-- From R22, R24, R100 (D7, D12, D14, the spec's choice) and the canonical form of memory: every step, from every state that meets the invariant, keeps it. -/
def Obligations.StepKeepsInv : Prop :=
  ∀ s t : State, Inv s → step s = .next t → Inv t

/-- The host's `load` and the beginning of `run()` keep the invariant. -/
def Obligations.HostActionsKeepInv : Prop :=
  ∀ s t : State, Inv s → ((∃ bytes, load bytes s = .ok t) ∨ startRun s = .ok t) → Inv t

/-- Every state the block can be in, constructed with any parameters, whatever the host loads and however often it runs,
meets the invariant, and its `out` only ever grows under a step. The step forms, over every state, are `StepKeepsInv`
and `OnlyPrnAppendsOneByte`. -/
def Obligations.ReachableStatesMeetInv : Prop :=
  ∀ s : State, Reachable s → Inv s ∧ ∀ t, step s = .next t → s.out <+: t.out

/-! ## Reset and the host -/

/-- From R115 (D2, D8, D21, the spec's choice): what construction leaves: R0..R6 zero, R7 = `SP_RESET`, PC 0, FL 0, status
Stopped, `out` empty, every cell 0. -/
def Obligations.ConstructionLeaves : Prop :=
  ∀ p : Params,
    (∀ r : Reg, r ≠ .r7 → (State.construct p).reg r = 0) ∧ (State.construct p).sp = p.spReset ∧
    (State.construct p).pc = 0 ∧ (State.construct p).fl = 0 ∧ (State.construct p).status = .stopped ∧
    (State.construct p).out = [] ∧ (∀ a, (State.construct p).readByte a = 0) ∧ State.reset = State.construct Params.default ∧
    State.reset.sp = 0xF4

/-- From R34 and R117 (D22, the spec's choice): every cell holds 0 at construction, until `load` writes the program: then
cell `a` holds byte `a` of it, and the cells past its end still hold 0. -/
def Obligations.MemoryZeroUntilLoad : Prop :=
  ∀ (p : Params) (a : Byte), (State.construct p).readByte a = 0 ∧
    ∀ (bytes : List Byte) (t : State), load bytes (State.construct p) = .ok t →
      t.readByte a = (bytes[a.toNat]?).getD 0

/-- R23: PC is 0 at construction; `load` does not change it, and neither does a fault; `run()` starts at the current
PC. -/
def Obligations.PcResetAndKept : Prop :=
  (∀ p : Params, (State.construct p).pc = 0) ∧
  (∀ (bytes : List Byte) (s t : State), load bytes s = .ok t → t.pc = s.pc) ∧
  (∀ (s t : State) (e : ErrorRecord), step s = .next t → t.status = .faulted e → t.pc = s.pc) ∧
  (∀ s t : State, startRun s = .ok t → t.pc = s.pc)

/-- From R117 (D22, the spec's choice): a `load` of at most 256 bytes while not Running writes byte `a` of the sequence to
cell `a`, keeps every other cell, registers, PC, FL, status and `out`; a longer one fails with LoadError. While Running,
where R117 only requires another status, the named error `coreRunning` is the model's choice, notes/assumptions/7.md. -/
def Obligations.LoadCopiesBytes : Prop :=
  ∀ (bytes : List Byte) (s : State), s.mem.wf = true →
    (s.status ≠ .running → bytes.length ≤ 256 →
      ∃ t, load bytes s = .ok t ∧ (∀ a : Byte, t.readByte a = (bytes[a.toNat]?).getD (s.readByte a)) ∧
        t.regs = s.regs ∧ t.pc = s.pc ∧ t.fl = s.fl ∧ t.status = s.status ∧ t.out = s.out ∧ t.params = s.params) ∧
    (s.status ≠ .running → 256 < bytes.length → load bytes s = .error (.failed (.loadError bytes.length))) ∧
    (s.status = .running → load bytes s = .error .coreRunning)

/-- From R104, R113, R118 (D9, D21, the spec's choice): a new `run()` after a halt or a fault, with nothing loaded between,
takes the same step again and ends as before. -/
def Obligations.RunAgainEndsTheSame : Prop :=
  ∀ s t : State, step s = .next t → t.status ≠ .running →
    ∃ u r, startRun t = .ok u ∧ step u = .next t ∧ run 1 t = .ok (some (t, r)) ∧
      (r = .success ↔ t.status = .halted) ∧ ∀ e, r = .executionError e ↔ t.status = .faulted e

/-- From R73 (derived there): a JMP through a register that holds the JMP's own address never ends: after any number of steps
the state is the same and Running, and no run ends. -/
def Obligations.JumpToSelfNeverEnds : Prop :=
  ∀ (s : State) (r : Reg), s.status = .running → s.params.jumpsAsUnknown = false → CodeAt s [0x54, r.toByte] →
    (s.reg r).toNat = s.pc → ∀ n, Sys2Proof.core.run n s = .next s ∧ runLoop n s = none

/-- From R119 (D21, the spec's choice): while not Running the host reads R0..R7 and all 256 cells; `out` it reads at any
time. While Running, where R119 gives `registers()` and `memory()` no result, the named error `coreRunning` is the
model's choice, notes/assumptions/7.md. -/
def Obligations.HostReadsState : Prop :=
  ∀ s : State,
    (s.status ≠ .running →
      registers s = .ok [s.reg .r0, s.reg .r1, s.reg .r2, s.reg .r3, s.reg .r4, s.reg .r5, s.reg .r6, s.sp] ∧
      ∃ cells, memory s = .ok cells ∧ cells.length = 256 ∧ ∀ a : Byte, cells[a.toNat]? = some (s.readByte a)) ∧
    (s.status = .running → registers s = .error .coreRunning ∧ memory s = .error .coreRunning) ∧
    output s = s.out
end

