-- ==== Sys2Proof/Laws/State.lean ====
section
/-! SUPPORT. What each named update of State leaves in each field. Every lemma is true by rfl, but those on reading a
register that was just written. -/

namespace Sys2Proof.Machine

/-! ## Registers -/

theorem RegFile.get_set (f : RegFile) (r q : Reg) (v : Byte) :
    (f.set r v).get q = if q = r then v else f.get q := by
  cases r <;> cases q <;> rfl

@[simp] theorem RegFile.get_set_self (f : RegFile) (r : Reg) (v : Byte) : (f.set r v).get r = v := by
  simp [RegFile.get_set]

/-- Register files that agree on every read are equal. -/
theorem RegFile.ext_get {f g : RegFile} (h : ∀ r, f.get r = g.get r) : f = g := by
  cases f; cases g
  simp only [RegFile.mk.injEq]
  exact ⟨h .r0, h .r1, h .r2, h .r3, h .r4, h .r5, h .r6, h .r7⟩

theorem State.reg_setReg (s : State) (r q : Reg) (v : Byte) :
    (s.setReg r v).reg q = if q = r then v else s.reg q := RegFile.get_set s.regs r q v

@[simp] theorem State.reg_setReg_self (s : State) (r : Reg) (v : Byte) : (s.setReg r v).reg r = v :=
  RegFile.get_set_self s.regs r v

@[simp] theorem State.sp_setSp (s : State) (v : Byte) : (s.setSp v).sp = v := rfl

theorem State.reg_setSp (s : State) (q : Reg) (v : Byte) :
    (s.setSp v).reg q = if q = .r7 then v else s.reg q := State.reg_setReg s .r7 q v

/-- SP is R7's storage (R17): a write to a register is seen as SP exactly when the register is R7. -/
theorem State.sp_setReg (s : State) (r : Reg) (v : Byte) : (s.setReg r v).sp = if r = .r7 then v else s.sp := by
  unfold State.sp
  rw [State.reg_setReg]
  by_cases h : r = .r7
  · simp [h]
  · rw [if_neg h, if_neg (Ne.symm h)]

@[simp] theorem State.setReg_pc (s : State) (r : Reg) (v : Byte) : (s.setReg r v).pc = s.pc := rfl
@[simp] theorem State.setReg_fl (s : State) (r : Reg) (v : Byte) : (s.setReg r v).fl = s.fl := rfl
@[simp] theorem State.setReg_status (s : State) (r : Reg) (v : Byte) : (s.setReg r v).status = s.status := rfl
@[simp] theorem State.setReg_out (s : State) (r : Reg) (v : Byte) : (s.setReg r v).out = s.out := rfl
@[simp] theorem State.setReg_mem (s : State) (r : Reg) (v : Byte) : (s.setReg r v).mem = s.mem := rfl
@[simp] theorem State.setReg_params (s : State) (r : Reg) (v : Byte) : (s.setReg r v).params = s.params := rfl
@[simp] theorem State.setReg_readByte (s : State) (r : Reg) (v a : Byte) :
    (s.setReg r v).readByte a = s.readByte a := rfl

@[simp] theorem State.setSp_pc (s : State) (v : Byte) : (s.setSp v).pc = s.pc := rfl
@[simp] theorem State.setSp_fl (s : State) (v : Byte) : (s.setSp v).fl = s.fl := rfl
@[simp] theorem State.setSp_status (s : State) (v : Byte) : (s.setSp v).status = s.status := rfl
@[simp] theorem State.setSp_out (s : State) (v : Byte) : (s.setSp v).out = s.out := rfl
@[simp] theorem State.setSp_mem (s : State) (v : Byte) : (s.setSp v).mem = s.mem := rfl
@[simp] theorem State.setSp_params (s : State) (v : Byte) : (s.setSp v).params = s.params := rfl
@[simp] theorem State.setSp_readByte (s : State) (v a : Byte) : (s.setSp v).readByte a = s.readByte a := rfl

/-! ## Memory -/

@[simp] theorem State.writeByte_regs (s : State) (a v : Byte) : (s.writeByte a v).regs = s.regs := rfl
@[simp] theorem State.writeByte_reg (s : State) (a v : Byte) (q : Reg) : (s.writeByte a v).reg q = s.reg q := rfl
@[simp] theorem State.writeByte_sp (s : State) (a v : Byte) : (s.writeByte a v).sp = s.sp := rfl
@[simp] theorem State.writeByte_pc (s : State) (a v : Byte) : (s.writeByte a v).pc = s.pc := rfl
@[simp] theorem State.writeByte_fl (s : State) (a v : Byte) : (s.writeByte a v).fl = s.fl := rfl
@[simp] theorem State.writeByte_status (s : State) (a v : Byte) : (s.writeByte a v).status = s.status := rfl
@[simp] theorem State.writeByte_out (s : State) (a v : Byte) : (s.writeByte a v).out = s.out := rfl
@[simp] theorem State.writeByte_mem (s : State) (a v : Byte) :
    (s.writeByte a v).mem = Memory.writeAt s.mem a.toNat v := rfl
@[simp] theorem State.writeByte_params (s : State) (a v : Byte) : (s.writeByte a v).params = s.params := rfl

/-! ## Program counter -/

@[simp] theorem State.setPc_pc (s : State) (p : Nat) : (s.setPc p).pc = p := rfl
@[simp] theorem State.setPc_regs (s : State) (p : Nat) : (s.setPc p).regs = s.regs := rfl
@[simp] theorem State.setPc_reg (s : State) (p : Nat) (q : Reg) : (s.setPc p).reg q = s.reg q := rfl
@[simp] theorem State.setPc_sp (s : State) (p : Nat) : (s.setPc p).sp = s.sp := rfl
@[simp] theorem State.setPc_fl (s : State) (p : Nat) : (s.setPc p).fl = s.fl := rfl
@[simp] theorem State.setPc_status (s : State) (p : Nat) : (s.setPc p).status = s.status := rfl
@[simp] theorem State.setPc_out (s : State) (p : Nat) : (s.setPc p).out = s.out := rfl
@[simp] theorem State.setPc_mem (s : State) (p : Nat) : (s.setPc p).mem = s.mem := rfl
@[simp] theorem State.setPc_params (s : State) (p : Nat) : (s.setPc p).params = s.params := rfl
@[simp] theorem State.setPc_readByte (s : State) (p : Nat) (a : Byte) : (s.setPc p).readByte a = s.readByte a := rfl

/-! ## Status -/

@[simp] theorem State.setStatus_status (s : State) (x : Status) : (s.setStatus x).status = x := rfl
@[simp] theorem State.setStatus_regs (s : State) (x : Status) : (s.setStatus x).regs = s.regs := rfl
@[simp] theorem State.setStatus_reg (s : State) (x : Status) (q : Reg) : (s.setStatus x).reg q = s.reg q := rfl
@[simp] theorem State.setStatus_sp (s : State) (x : Status) : (s.setStatus x).sp = s.sp := rfl
@[simp] theorem State.setStatus_pc (s : State) (x : Status) : (s.setStatus x).pc = s.pc := rfl
@[simp] theorem State.setStatus_fl (s : State) (x : Status) : (s.setStatus x).fl = s.fl := rfl
@[simp] theorem State.setStatus_out (s : State) (x : Status) : (s.setStatus x).out = s.out := rfl
@[simp] theorem State.setStatus_mem (s : State) (x : Status) : (s.setStatus x).mem = s.mem := rfl
@[simp] theorem State.setStatus_params (s : State) (x : Status) : (s.setStatus x).params = s.params := rfl
@[simp] theorem State.setStatus_readByte (s : State) (x : Status) (a : Byte) :
    (s.setStatus x).readByte a = s.readByte a := rfl

/-! ## Output -/

@[simp] theorem State.emit_out (s : State) (v : Byte) : (s.emit v).out = s.out ++ [v] := rfl
@[simp] theorem State.emit_regs (s : State) (v : Byte) : (s.emit v).regs = s.regs := rfl
@[simp] theorem State.emit_reg (s : State) (v : Byte) (q : Reg) : (s.emit v).reg q = s.reg q := rfl
@[simp] theorem State.emit_sp (s : State) (v : Byte) : (s.emit v).sp = s.sp := rfl
@[simp] theorem State.emit_pc (s : State) (v : Byte) : (s.emit v).pc = s.pc := rfl
@[simp] theorem State.emit_fl (s : State) (v : Byte) : (s.emit v).fl = s.fl := rfl
@[simp] theorem State.emit_status (s : State) (v : Byte) : (s.emit v).status = s.status := rfl
@[simp] theorem State.emit_mem (s : State) (v : Byte) : (s.emit v).mem = s.mem := rfl
@[simp] theorem State.emit_params (s : State) (v : Byte) : (s.emit v).params = s.params := rfl
@[simp] theorem State.emit_readByte (s : State) (v a : Byte) : (s.emit v).readByte a = s.readByte a := rfl

/-! ## Flags -/

@[simp] theorem State.setFl_fl (s : State) (v : Byte) : (s.setFl v).fl = v := rfl
@[simp] theorem State.setFl_regs (s : State) (v : Byte) : (s.setFl v).regs = s.regs := rfl
@[simp] theorem State.setFl_reg (s : State) (v : Byte) (q : Reg) : (s.setFl v).reg q = s.reg q := rfl
@[simp] theorem State.setFl_sp (s : State) (v : Byte) : (s.setFl v).sp = s.sp := rfl
@[simp] theorem State.setFl_pc (s : State) (v : Byte) : (s.setFl v).pc = s.pc := rfl
@[simp] theorem State.setFl_status (s : State) (v : Byte) : (s.setFl v).status = s.status := rfl
@[simp] theorem State.setFl_out (s : State) (v : Byte) : (s.setFl v).out = s.out := rfl
@[simp] theorem State.setFl_mem (s : State) (v : Byte) : (s.setFl v).mem = s.mem := rfl
@[simp] theorem State.setFl_params (s : State) (v : Byte) : (s.setFl v).params = s.params := rfl
@[simp] theorem State.setFl_readByte (s : State) (v a : Byte) : (s.setFl v).readByte a = s.readByte a := rfl

end Sys2Proof.Machine
end

