-- ==== Sys2Proof/Laws/Ops.lean ====
section
/-! SUPPORT. One lemma for each shared operation that says everything it can do, for citing instead of unfolding. -/

namespace Sys2Proof.Machine

/-! ## Sequencing -/

theorem bind_eq_ok {ε α β : Type} {x : Except ε α} {f : α → Except ε β} {b : β} :
    (x >>= f) = .ok b ↔ ∃ a, x = .ok a ∧ f a = .ok b := by
  cases x <;> simp [bind, Except.bind]

theorem bind_eq_error {ε α β : Type} {x : Except ε α} {f : α → Except ε β} {e : ε} :
    (x >>= f) = .error e ↔ x = .error e ∨ ∃ a, x = .ok a ∧ f a = .error e := by
  cases x <;> simp [bind, Except.bind]

@[simp] theorem ok_bind {ε α β : Type} (a : α) (f : α → Except ε β) : ((.ok a : Except ε α) >>= f) = f a := rfl

@[simp] theorem error_bind {ε α β : Type} (e : ε) (f : α → Except ε β) :
    ((.error e : Except ε α) >>= f) = .error e := rfl

/-- What a step ends in: the working copy, or the state it began in with the fault entered. -/
theorem commit_eq_next {s t : State} {w : Except ErrorRecord State} :
    commit s w = .next t ↔ w = .ok t ∨ ∃ e, w = .error e ∧ t = takeFault e s := by
  cases w with
  | ok u => simp [commit]
  | error e => simp [commit, eq_comm]

/-- A step that got as far as `commit` has a next state. -/
theorem commit_next (s : State) (w : Except ErrorRecord State) : ∃ t, commit s w = .next t := by
  cases w <;> simp [commit]

/-! ## Fault entry and resuming -/

@[simp] theorem takeFault_status (e : ErrorRecord) (s : State) : (takeFault e s).status = .faulted e := rfl
@[simp] theorem takeFault_regs (e : ErrorRecord) (s : State) : (takeFault e s).regs = s.regs := rfl
@[simp] theorem takeFault_reg (e : ErrorRecord) (s : State) (q : Reg) : (takeFault e s).reg q = s.reg q := rfl
@[simp] theorem takeFault_pc (e : ErrorRecord) (s : State) : (takeFault e s).pc = s.pc := rfl
@[simp] theorem takeFault_fl (e : ErrorRecord) (s : State) : (takeFault e s).fl = s.fl := rfl
@[simp] theorem takeFault_out (e : ErrorRecord) (s : State) : (takeFault e s).out = s.out := rfl
@[simp] theorem takeFault_mem (e : ErrorRecord) (s : State) : (takeFault e s).mem = s.mem := rfl
@[simp] theorem takeFault_params (e : ErrorRecord) (s : State) : (takeFault e s).params = s.params := rfl
@[simp] theorem takeFault_readByte (e : ErrorRecord) (s : State) (a : Byte) :
    (takeFault e s).readByte a = s.readByte a := rfl

/-- A running state that took a fault, resumed, is itself. -/
theorem resume_takeFault {s : State} (h : s.status = .running) (e : ErrorRecord) : resume (takeFault e s) = s := by
  cases s; simp only at h; subst h; rfl

/-! ## Addresses, PC, stack pointer -/

/-- `chk`: in range or under `Wrap`, the address modulo 256; otherwise MemoryBoundsError. -/
theorem chk_cases (s : State) (a : Nat) :
    (chk s a = .ok (BitVec.ofNat 8 a) ∧ (a ≤ 255 ∨ s.params.boundsPolicy = .wrap)) ∨
    (chk s a = .error (.memoryBoundsError a s.pc) ∧ 255 < a ∧ s.params.boundsPolicy = .fault) := by
  unfold chk
  by_cases ha : a ≤ 255
  · simp [ha]
  · cases hp : s.params.boundsPolicy with
    | wrap =>
      left
      simp only [ha, if_false, or_true, and_true, Except.ok.injEq]
      exact BitVec.eq_of_toNat_eq (by simp)
    | fault => right; simp [ha]; omega

theorem chk_of_le {s : State} {a : Nat} (h : a ≤ 255) : chk s a = .ok (BitVec.ofNat 8 a) := by simp [chk, h]

theorem chk_of_wrap {s : State} (h : s.params.boundsPolicy = .wrap) (a : Nat) : chk s a = .ok (BitVec.ofNat 8 a) := by
  rcases chk_cases s a with h' | h'
  · exact h'.1
  · rw [h] at h'; exact absurd h'.2.2 (by decide)

/-- `sp_dec`: one less, modulo 256 under `Wrap`; StackOverflow from 0 under `Fault`. -/
theorem spDec_cases (s : State) (v : Byte) :
    (spDec s v = .ok (v - 1) ∧ (s.params.boundsPolicy = .wrap ∨ v ≠ 0)) ∨
    (spDec s v = .error (.stackOverflow 0 s.pc) ∧ v = 0 ∧ s.params.boundsPolicy = .fault) := by
  unfold spDec
  by_cases hv : v = 0
  · subst hv
    cases hp : s.params.boundsPolicy <;> simp
  · exact .inl ⟨if_neg hv, .inr hv⟩

theorem spDec_ok {s : State} {v : Byte} (h : s.params.boundsPolicy = .wrap ∨ v ≠ 0) : spDec s v = .ok (v - 1) := by
  rcases spDec_cases s v with h' | ⟨_, h0, hf⟩
  · exact h'.1
  · rcases h with h | h
    · rw [h] at hf; exact absurd hf (by decide)
    · exact absurd h0 h

/-- `sp_inc`: one more, modulo 256 under `Wrap`; StackUnderflow from 255 under `Fault`. -/
theorem spInc_cases (s : State) (v : Byte) :
    (spInc s v = .ok (v + 1) ∧ (s.params.boundsPolicy = .wrap ∨ v ≠ 255)) ∨
    (spInc s v = .error (.stackUnderflow 255 s.pc) ∧ v = 255 ∧ s.params.boundsPolicy = .fault) := by
  unfold spInc
  by_cases hv : v = 255
  · subst hv
    cases hp : s.params.boundsPolicy <;> simp
  · exact .inl ⟨if_neg hv, .inr hv⟩

theorem spInc_ok {s : State} {v : Byte} (h : s.params.boundsPolicy = .wrap ∨ v ≠ 255) : spInc s v = .ok (v + 1) := by
  rcases spInc_cases s v with h' | ⟨_, h0, hf⟩
  · exact h'.1
  · rcases h with h | h
    · rw [h] at hf; exact absurd hf (by decide)
    · exact absurd h0 h

/-- The decrement of SP in place. -/
theorem decSp_cases (s : State) :
    (decSp s = .ok (s.setSp (s.sp - 1)) ∧ (s.params.boundsPolicy = .wrap ∨ s.sp ≠ 0)) ∨
    (decSp s = .error (.stackOverflow 0 s.pc) ∧ s.sp = 0 ∧ s.params.boundsPolicy = .fault) := by
  unfold decSp
  rcases spDec_cases s s.sp with h | h
  · exact .inl ⟨by rw [h.1]; rfl, h.2⟩
  · exact .inr ⟨by rw [h.1]; rfl, h.2⟩

/-- The increment of SP in place. -/
theorem incSp_cases (s : State) :
    (incSp s = .ok (s.setSp (s.sp + 1)) ∧ (s.params.boundsPolicy = .wrap ∨ s.sp ≠ 255)) ∨
    (incSp s = .error (.stackUnderflow 255 s.pc) ∧ s.sp = 255 ∧ s.params.boundsPolicy = .fault) := by
  unfold incSp
  rcases spInc_cases s s.sp with h | h
  · exact .inl ⟨by rw [h.1]; rfl, h.2⟩
  · exact .inr ⟨by rw [h.1]; rfl, h.2⟩

theorem decSp_ok {s : State} (h : s.params.boundsPolicy = .wrap ∨ s.sp ≠ 0) :
    decSp s = .ok (s.setSp (s.sp - 1)) := by
  unfold decSp; rw [spDec_ok h]; rfl

theorem incSp_ok {s : State} (h : s.params.boundsPolicy = .wrap ∨ s.sp ≠ 255) :
    incSp s = .ok (s.setSp (s.sp + 1)) := by
  unfold incSp; rw [spInc_ok h]; rfl

/-- The sequential PC, under either policy. -/
theorem nextSeqPc_eq (s : State) (n : Nat) :
    nextSeqPc s n = if s.params.boundsPolicy = .wrap then (s.pc + n) % 256 else s.pc + n := by
  unfold nextSeqPc
  cases s.params.boundsPolicy <;> rfl

/-! ## Register operands -/

@[simp] theorem Reg.ofByte?_toByte (r : Reg) : Reg.ofByte? r.toByte = some r := by cases r <;> rfl

theorem Reg.toByte_lt (r : Reg) : r.toByte.toNat < 8 := by cases r <;> decide

/-- A byte names a register exactly when it is that register's operand byte. -/
theorem Reg.ofByte?_eq_some {b : Byte} {r : Reg} : Reg.ofByte? b = some r ↔ b = r.toByte := by
  constructor
  · intro h
    unfold Reg.ofByte? at h
    split at h <;> simp only [Option.some.injEq, reduceCtorEq] at h
    all_goals (subst h; exact BitVec.eq_of_toNat_eq ‹_›)
  · rintro rfl; exact Reg.ofByte?_toByte r

/-- A byte names no register exactly when it is 8 or more (R51). -/
theorem Reg.ofByte?_eq_none {b : Byte} : Reg.ofByte? b = none ↔ 8 ≤ b.toNat := by
  revert b
  decide

theorem Reg.exists_toByte {b : Byte} (h : b.toNat < 8) : ∃ r : Reg, b = r.toByte := by
  cases hb : Reg.ofByte? b with
  | none => rw [Reg.ofByte?_eq_none] at hb; omega
  | some r => exact ⟨r, Reg.ofByte?_eq_some.1 hb⟩

@[simp] theorem regOperand_toByte (s : State) (r : Reg) : regOperand s r.toByte = .ok r := by simp [regOperand]

theorem regOperand_eq_ok {s : State} {b : Byte} {r : Reg} : regOperand s b = .ok r ↔ b = r.toByte := by
  rw [← Reg.ofByte?_eq_some, regOperand]
  cases Reg.ofByte? b <;> simp

theorem regOperand_eq_error {s : State} {b : Byte} {e : ErrorRecord} :
    regOperand s b = .error e ↔ 8 ≤ b.toNat ∧ e = .invalidRegister b s.pc := by
  rw [← Reg.ofByte?_eq_none, regOperand]
  cases Reg.ofByte? b <;> simp [eq_comm]

theorem regOperand_invalid {b : Byte} (h : 8 ≤ b.toNat) (s : State) :
    regOperand s b = .error (.invalidRegister b s.pc) := regOperand_eq_error.2 ⟨h, rfl⟩

/-! ## The control_flow_unit writes PC and nothing else -/

@[simp] theorem controlFlow_regs (tr : Transfer) (s : State) : (controlFlow tr s).regs = s.regs := by
  cases tr <;> simp only [controlFlow] <;> (try split) <;> rfl
@[simp] theorem controlFlow_reg (tr : Transfer) (s : State) (q : Reg) : (controlFlow tr s).reg q = s.reg q := by
  simp [State.reg]
@[simp] theorem controlFlow_sp (tr : Transfer) (s : State) : (controlFlow tr s).sp = s.sp := controlFlow_reg tr s .r7
@[simp] theorem controlFlow_fl (tr : Transfer) (s : State) : (controlFlow tr s).fl = s.fl := by
  cases tr <;> simp only [controlFlow] <;> (try split) <;> rfl
@[simp] theorem controlFlow_status (tr : Transfer) (s : State) : (controlFlow tr s).status = s.status := by
  cases tr <;> simp only [controlFlow] <;> (try split) <;> rfl
@[simp] theorem controlFlow_out (tr : Transfer) (s : State) : (controlFlow tr s).out = s.out := by
  cases tr <;> simp only [controlFlow] <;> (try split) <;> rfl
@[simp] theorem controlFlow_mem (tr : Transfer) (s : State) : (controlFlow tr s).mem = s.mem := by
  cases tr <;> simp only [controlFlow] <;> (try split) <;> rfl
@[simp] theorem controlFlow_params (tr : Transfer) (s : State) : (controlFlow tr s).params = s.params := by
  cases tr <;> simp only [controlFlow] <;> (try split) <;> rfl
@[simp] theorem controlFlow_readByte (tr : Transfer) (s : State) (a : Byte) :
    (controlFlow tr s).readByte a = s.readByte a := by simp [State.readByte]

/-- The PC the control_flow_unit gives (R90). -/
theorem controlFlow_pc (tr : Transfer) (s : State) :
    (controlFlow tr s).pc =
      match tr with
      | .seq len => nextSeqPc s len
      | .always t => t.toNat
      | .ifEqual t => if s.flagE then t.toNat else nextSeqPc s 2
      | .ifNotEqual t => if s.flagE then nextSeqPc s 2 else t.toNat
      | .hold => s.pc := by
  cases tr <;> simp only [controlFlow] <;> (try split) <;> rfl

/-! ## Flags -/

/-- The flag byte of a comparison, by the order of its operands (R83). -/
theorem compareFlags_eq (a b : Byte) :
    compareFlags a b = if a.toNat < b.toNat then 4 else if b.toNat < a.toNat then 2 else 1 := by
  have h1 : a.ult b = decide (a.toNat < b.toNat) := rfl
  have h2 : b.ult a = decide (b.toNat < a.toNat) := rfl
  have h3 : (a == b) = decide (a.toNat = b.toNat) := by
    rw [Bool.eq_iff_iff, beq_iff_eq, decide_eq_true_eq]
    exact ⟨fun h => by rw [h], BitVec.eq_of_toNat_eq⟩
  unfold compareFlags
  rw [h1, h2, h3]
  rcases Nat.lt_trichotomy a.toNat b.toNat with h | h | h
  · simp [h, Nat.not_lt.2 (Nat.le_of_lt h), Nat.ne_of_lt h]
  · simp [h]
  · simp [h, Nat.not_lt.2 (Nat.le_of_lt h), Nat.ne_of_gt h]

/-! ## The alu -/

theorem alu_add (a b : Byte) (p : Nat) : alu aluAdd a b p = .ok { result := some (a + b), flIn := none } := by
  have : BitVec.ofNat 8 (a.toNat + b.toNat) = a + b := BitVec.eq_of_toNat_eq (by simp)
  simp [alu, this]

theorem alu_mul (a b : Byte) (p : Nat) : alu aluMul a b p = .ok { result := some (a * b), flIn := none } := by
  have : BitVec.ofNat 8 (a.toNat * b.toNat) = a * b := BitVec.eq_of_toNat_eq (by simp)
  simp [alu, this, aluMul, aluAdd]

theorem alu_cmp (a b : Byte) (p : Nat) : alu aluCmp a b p = .ok { result := none, flIn := some (compareFlags a b) } := by
  simp [alu, aluMul, aluAdd, aluCmp]

end Sys2Proof.Machine
end

