-- ==== Sys2Proof/Laws/Decode.lean ====
section
/-! SUPPORT. What the decoder unit, the decoding over a source of bytes and the encoder can do. -/

namespace Sys2Proof

open Sys2Proof.Machine (bind_eq_ok bind_eq_error)

/-- A row the decoder unit gives is a row of the map, for its own opcode byte, and no removed jump. -/
theorem decoder_row {jau : Bool} {ir : Byte} {row : OpcodeRow} (h : decoder jau ir = some row) :
    row ∈ opcodeTable ∧ row.opcode = ir ∧ (jau && row.op.isJump) = false := by
  unfold decoder at h
  split at h
  · next r hr =>
    split at h
    · cases h
    · next hj =>
      cases h
      refine ⟨List.mem_of_find?_eq_some hr, ?_, by simpa using hj⟩
      simpa using List.find?_some hr
  · cases h

/-- The rows of the map, one by one. -/
theorem opcodeTable_cases {row : OpcodeRow} (h : row ∈ opcodeTable) :
    row = ⟨0x01, .hlt, .n, 1, none, false, true⟩ ∨ row = ⟨0x82, .ldi, .ri, 3, none, false, false⟩ ∨
    row = ⟨0x47, .prn, .r, 2, none, false, false⟩ ∨ row = ⟨0xA2, .mul, .rr, 3, some aluMul, false, false⟩ ∨
    row = ⟨0xA0, .add, .rr, 3, some aluAdd, false, false⟩ ∨ row = ⟨0xA7, .cmp, .rr, 3, some aluCmp, false, false⟩ ∨
    row = ⟨0x45, .push, .r, 2, none, false, false⟩ ∨ row = ⟨0x46, .pop, .r, 2, none, false, false⟩ ∨
    row = ⟨0x50, .call, .r, 2, none, true, false⟩ ∨ row = ⟨0x11, .ret, .n, 1, none, true, false⟩ ∨
    row = ⟨0x54, .jmp, .r, 2, none, true, false⟩ ∨ row = ⟨0x55, .jeq, .r, 2, none, true, false⟩ ∨
    row = ⟨0x56, .jne, .r, 2, none, true, false⟩ := by
  simpa [opcodeTable] using h

/-- A row of the map assembles an instruction whose encoding is the row's opcode and the operand bytes the row's length
asks for. -/
theorem encode_assemble {row : OpcodeRow} (h : row ∈ opcodeTable) (b1 b2 : Byte) :
    encode (assemble row.op b1 b2) =
      row.opcode :: ((if 2 ≤ row.len then [b1] else []) ++ (if row.len = 3 then [b2] else [])) := by
  rcases opcodeTable_cases h with h | h | h | h | h | h | h | h | h | h | h | h | h <;> subst h <;> rfl

/-- Every row's length is 1, 2 or 3. -/
theorem opcodeTable_len {row : OpcodeRow} (h : row ∈ opcodeTable) : row.len = 1 ∨ row.len = 2 ∨ row.len = 3 := by
  rcases opcodeTable_cases h with h | h | h | h | h | h | h | h | h | h | h | h | h <;> subst h <;> simp

/-- The length of an instruction is the length of its encoding. -/
theorem length_eq_encode (i : Instr) : i.length = (encode i).length := by cases i <;> rfl

/-- Everything decoding over a source of bytes can give: the error of reading the opcode byte, the error of an unknown
opcode, the error of reading an operand byte the row asks for, or the instruction. -/
theorem decodeWith_ok {ε : Type} {jau : Bool} {unknown : Byte → ε} {byteAt : Nat → Except ε Byte} {i : Instr}
    (h : decodeWith jau unknown byteAt = .ok i) :
    ∃ ir row b1 b2, byteAt 0 = .ok ir ∧ decoder jau ir = some row ∧ i = assemble row.op b1 b2 ∧
      (2 ≤ row.len → byteAt 1 = .ok b1) ∧ (row.len = 3 → byteAt 2 = .ok b2) := by
  unfold decodeWith at h
  obtain ⟨ir, hir, h⟩ := bind_eq_ok.1 h
  split at h
  · cases h
  · next row hrow =>
    obtain ⟨b1, hb1, h⟩ := bind_eq_ok.1 h
    obtain ⟨b2, hb2, h⟩ := bind_eq_ok.1 h
    refine ⟨ir, row, b1, b2, hir, hrow, (Except.ok.inj h).symm, fun hl => ?_, fun hl => ?_⟩
    · simpa [operandIf, hl] using hb1
    · simpa [operandIf, hl] using hb2

theorem decodeWith_error {ε : Type} {jau : Bool} {unknown : Byte → ε} {byteAt : Nat → Except ε Byte} {e : ε}
    (h : decodeWith jau unknown byteAt = .error e) :
    byteAt 0 = .error e ∨ ∃ ir, byteAt 0 = .ok ir ∧
      ((decoder jau ir = none ∧ e = unknown ir) ∨ ∃ row, decoder jau ir = some row ∧
        ((2 ≤ row.len ∧ byteAt 1 = .error e) ∨ (row.len = 3 ∧ (∃ b1, byteAt 1 = .ok b1) ∧ byteAt 2 = .error e))) := by
  unfold decodeWith at h
  rcases bind_eq_error.1 h with h | ⟨ir, hir, h⟩
  · exact .inl h
  · refine .inr ⟨ir, hir, ?_⟩
    split at h
    · next hn => exact .inl ⟨hn, (Except.error.inj h).symm⟩
    · next row hrow =>
      refine .inr ⟨row, hrow, ?_⟩
      rcases bind_eq_error.1 h with h1 | ⟨b1, hb1, h⟩
      · by_cases hl : 2 ≤ row.len
        · exact .inl ⟨hl, by simpa [operandIf, hl] using h1⟩
        · simp [operandIf, hl] at h1
      · rcases bind_eq_error.1 h with h2 | ⟨b2, _, h⟩
        · by_cases hl : row.len = 3
          · refine .inr ⟨hl, ⟨b1, ?_⟩, by simpa [operandIf, hl] using h2⟩
            simpa [operandIf, hl] using hb1
          · simp [operandIf, hl] at h2
        · cases h

/-- Decoding over a source that gives the bytes the row asks for. -/
theorem decodeWith_of_row {ε : Type} {jau : Bool} {unknown : Byte → ε} {byteAt : Nat → Except ε Byte} {ir b1 b2 : Byte}
    {row : OpcodeRow} (h0 : byteAt 0 = .ok ir) (hrow : decoder jau ir = some row)
    (h1 : 2 ≤ row.len → byteAt 1 = .ok b1) (h2 : row.len = 3 → byteAt 2 = .ok b2) :
    decodeWith jau unknown byteAt = .ok (assemble row.op b1 b2) := by
  unfold decodeWith
  rw [h0]
  simp only [Sys2Proof.Machine.ok_bind, hrow]
  rcases opcodeTable_cases (decoder_row hrow).1 with h | h | h | h | h | h | h | h | h | h | h | h | h <;>
    subst h <;> simp_all [assemble, operandIf]

end Sys2Proof
end

