-- ==== Sys2Proof/Laws/Instr.lean ====
section
/-! SUPPORT. For each instruction, everything its meaning can do, in one equation: `exec` of it is `commit` of a working
copy, and the working copy is one of the listed cases. -/

namespace Sys2Proof.Machine

/-- The check of one register operand splits every meaning in two: InvalidRegister, or the operand is a register's
byte. -/
theorem operand_cases (s : State) (b : Byte) :
    (8 ≤ b.toNat ∧ regOperand s b = .error (.invalidRegister b s.pc)) ∨ ∃ r : Reg, b = r.toByte := by
  by_cases h : b.toNat < 8
  · exact .inr (Reg.exists_toByte h)
  · exact .inl ⟨by omega, regOperand_invalid (by omega) s⟩

theorem exec_hlt (s : State) : exec .hlt s = .next (s.setStatus .halted) := rfl

theorem exec_ldi (r : Reg) (v : Byte) (s : State) :
    exec (.ldi r.toByte v) s = .next (controlFlow (.seq 3) (s.setReg r v)) := by
  simp [exec, execLdi, commit]

theorem exec_prn (r : Reg) (s : State) :
    exec (.prn r.toByte) s = .next (controlFlow (.seq 2) (s.emit (s.reg r))) := by
  simp [exec, execPrn, commit]

theorem exec_mul (ra rb : Reg) (s : State) :
    exec (.mul ra.toByte rb.toByte) s = .next (controlFlow (.seq 3) (s.setReg ra (s.reg ra * s.reg rb))) := by
  simp [exec, execMul, commit, aluStep, regOperands, alu_mul, AluOut.apply]

theorem exec_add (ra rb : Reg) (s : State) :
    exec (.add ra.toByte rb.toByte) s = .next (controlFlow (.seq 3) (s.setReg ra (s.reg ra + s.reg rb))) := by
  simp [exec, execAdd, commit, aluStep, regOperands, alu_add, AluOut.apply]

theorem exec_cmp (ra rb : Reg) (s : State) :
    exec (.cmp ra.toByte rb.toByte) s = .next (controlFlow (.seq 3) (s.setFl (compareFlags (s.reg ra) (s.reg rb)))) := by
  simp [exec, execCmp, commit, aluStep, regOperands, alu_cmp, AluOut.apply]

theorem exec_push (r : Reg) (s : State) :
    exec (.push r.toByte) s =
      commit s (decSp s >>= fun s1 => .ok (controlFlow (.seq 2) (s1.writeByte s1.sp (s1.reg r)))) := by
  simp [exec, execPush]

theorem exec_pop (r : Reg) (s : State) :
    exec (.pop r.toByte) s =
      commit s (incSp (s.setReg r (s.readByte s.sp)) >>= fun s2 => .ok (controlFlow (.seq 2) s2)) := by
  simp [exec, execPop]

theorem exec_call (r : Reg) (s : State) :
    exec (.call r.toByte) s =
      commit s (chk s (s.pc + 2) >>= fun ret => decSp s >>= fun s1 =>
        .ok (controlFlow (.always (s1.reg r)) (s1.writeByte s1.sp ret))) := by
  simp [exec, execCall]

theorem exec_ret (s : State) :
    exec .ret s = commit s (incSp s >>= fun s1 => .ok (controlFlow (.always (s.readByte s.sp)) s1)) := rfl

theorem exec_jmp (r : Reg) (s : State) :
    exec (.jmp r.toByte) s = .next (controlFlow (.always (s.reg r)) s) := by
  simp [exec, execJmp, commit]

theorem exec_jeq (r : Reg) (s : State) :
    exec (.jeq r.toByte) s = .next (controlFlow (.ifEqual (s.reg r)) s) := by
  simp [exec, execJeq, commit]

theorem exec_jne (r : Reg) (s : State) :
    exec (.jne r.toByte) s = .next (controlFlow (.ifNotEqual (s.reg r)) s) := by
  simp [exec, execJne, commit]

/-- The errors an instruction's execution can raise from a state, and when (R69, R102 items 4 and 5). -/
inductive ExecRaises (s : State) : Instr → ErrorRecord → Prop
  | invalidRegister {i : Instr} (b : Byte) (h : 8 ≤ b.toNat) (hi : i.wellFormed = false) :
      ExecRaises s i (.invalidRegister b s.pc)
  | returnAddress (r : Reg) (h : 255 < s.pc + 2) (hp : s.params.boundsPolicy = .fault) :
      ExecRaises s (.call r.toByte) (.memoryBoundsError (s.pc + 2) s.pc)
  | pushOverflow (r : Reg) (h : s.sp = 0) (hp : s.params.boundsPolicy = .fault) :
      ExecRaises s (.push r.toByte) (.stackOverflow 0 s.pc)
  | callOverflow (r : Reg) (h : s.sp = 0) (hp : s.params.boundsPolicy = .fault) :
      ExecRaises s (.call r.toByte) (.stackOverflow 0 s.pc)
  | popUnderflow (r : Reg) (h : (s.setReg r (s.readByte s.sp)).sp = 255) (hp : s.params.boundsPolicy = .fault) :
      ExecRaises s (.pop r.toByte) (.stackUnderflow 255 s.pc)
  | retUnderflow (h : s.sp = 255) (hp : s.params.boundsPolicy = .fault) :
      ExecRaises s .ret (.stackUnderflow 255 s.pc)

/-- What an instruction that completed did: for each instruction, its next state in terms of the named operations. -/
inductive Completes (s : State) : Instr → State → Prop
  | hlt : Completes s .hlt (s.setStatus .halted)
  | ldi (r : Reg) (v : Byte) : Completes s (.ldi r.toByte v) (controlFlow (.seq 3) (s.setReg r v))
  | prn (r : Reg) : Completes s (.prn r.toByte) (controlFlow (.seq 2) (s.emit (s.reg r)))
  | mul (a b : Reg) :
      Completes s (.mul a.toByte b.toByte) (controlFlow (.seq 3) (s.setReg a (s.reg a * s.reg b)))
  | add (a b : Reg) :
      Completes s (.add a.toByte b.toByte) (controlFlow (.seq 3) (s.setReg a (s.reg a + s.reg b)))
  | cmp (a b : Reg) :
      Completes s (.cmp a.toByte b.toByte) (controlFlow (.seq 3) (s.setFl (compareFlags (s.reg a) (s.reg b))))
  | push (r : Reg) (h : s.params.boundsPolicy = .wrap ∨ s.sp ≠ 0) :
      Completes s (.push r.toByte)
        (controlFlow (.seq 2) ((s.setSp (s.sp - 1)).writeByte (s.sp - 1) ((s.setSp (s.sp - 1)).reg r)))
  | pop (r : Reg)
      (h : s.params.boundsPolicy = .wrap ∨ (s.setReg r (s.readByte s.sp)).sp ≠ 255) :
      Completes s (.pop r.toByte)
        (controlFlow (.seq 2)
          ((s.setReg r (s.readByte s.sp)).setSp ((s.setReg r (s.readByte s.sp)).sp + 1)))
  | call (r : Reg) (h : s.params.boundsPolicy = .wrap ∨ s.sp ≠ 0)
      (hr : s.pc + 2 ≤ 255 ∨ s.params.boundsPolicy = .wrap) :
      Completes s (.call r.toByte)
        (controlFlow (.always ((s.setSp (s.sp - 1)).reg r))
          ((s.setSp (s.sp - 1)).writeByte (s.sp - 1) (BitVec.ofNat 8 (s.pc + 2))))
  | ret (h : s.params.boundsPolicy = .wrap ∨ s.sp ≠ 255) :
      Completes s .ret (controlFlow (.always (s.readByte s.sp)) (s.setSp (s.sp + 1)))
  | jmp (r : Reg) : Completes s (.jmp r.toByte) (controlFlow (.always (s.reg r)) s)
  | jeq (r : Reg) : Completes s (.jeq r.toByte) (controlFlow (.ifEqual (s.reg r)) s)
  | jne (r : Reg) : Completes s (.jne r.toByte) (controlFlow (.ifNotEqual (s.reg r)) s)

/-- An instruction that completed kept the status, unless it is HLT. -/
theorem Completes.status {s t : State} {i : Instr} (h : Completes s i t) :
    t.status = s.status ∨ (i = .hlt ∧ t.status = .halted) := by
  cases h <;> simp

/-- Any meaning whose first check is a register operand raises InvalidRegister on a byte of 8 or more. -/
theorem commit_invalid {s : State} {b : Byte} (h : 8 ≤ b.toNat) (f : Reg → Except ErrorRecord State) :
    commit s (regOperand s b >>= f) = .next (takeFault (.invalidRegister b s.pc) s) := by
  rw [regOperand_invalid h]; rfl

theorem aluStep_invalid_left {s : State} {a : Byte} (h : 8 ≤ a.toNat) (op : BitVec 2) (b : Byte) :
    aluStep op a b s = .error (.invalidRegister a s.pc) := by
  simp [aluStep, regOperands, regOperand_invalid h]

theorem aluStep_invalid_right {s : State} {b : Byte} (h : 8 ≤ b.toNat) (op : BitVec 2) (r : Reg) :
    aluStep op r.toByte b s = .error (.invalidRegister b s.pc) := by
  simp [aluStep, regOperands, regOperand_invalid h]

theorem namesRegister_eq_false {b : Byte} (h : 8 ≤ b.toNat) : namesRegister b = false := by
  simp [namesRegister, h]

@[simp] theorem namesRegister_toByte (r : Reg) : namesRegister r.toByte = true := by
  simp [namesRegister, Reg.toByte_lt]

/-- One ALU instruction: InvalidRegister, or both operands are registers. -/
theorem commit_aluStep_cases (op : BitVec 2) (a b : Byte) (s : State) {i : Instr}
    (hi : i.wellFormed = (namesRegister a && namesRegister b)) :
    (∃ e, ExecRaises s i e ∧ commit s (aluStep op a b s) = .next (takeFault e s)) ∨
    ∃ ra rb : Reg, a = ra.toByte ∧ b = rb.toByte := by
  rcases operand_cases s a with ⟨ha, _⟩ | ⟨ra, rfl⟩
  · refine .inl ⟨_, .invalidRegister a ha ?_, by rw [aluStep_invalid_left ha]; rfl⟩
    simp [hi, namesRegister_eq_false ha]
  · rcases operand_cases s b with ⟨hb, _⟩ | ⟨rb, rfl⟩
    · refine .inl ⟨_, .invalidRegister b hb ?_, by rw [aluStep_invalid_right hb]; rfl⟩
      simp [hi, namesRegister_eq_false hb]
    · exact .inr ⟨ra, rb, rfl, rfl⟩

/-- EVERYTHING EXECUTION CAN DO: it takes one of its errors, or it completes. -/
theorem exec_cases (i : Instr) (s : State) :
    (∃ e, ExecRaises s i e ∧ exec i s = .next (takeFault e s)) ∨ ∃ t, Completes s i t ∧ exec i s = .next t := by
  cases i with
  | hlt => exact .inr ⟨_, .hlt, exec_hlt s⟩
  | ldi b v =>
    rcases operand_cases s b with ⟨hb, _⟩ | ⟨r, rfl⟩
    · exact .inl ⟨_, .invalidRegister b hb (namesRegister_eq_false hb), commit_invalid hb _⟩
    · exact .inr ⟨_, .ldi r v, exec_ldi r v s⟩
  | prn b =>
    rcases operand_cases s b with ⟨hb, _⟩ | ⟨r, rfl⟩
    · exact .inl ⟨_, .invalidRegister b hb (namesRegister_eq_false hb), commit_invalid hb _⟩
    · exact .inr ⟨_, .prn r, exec_prn r s⟩
  | mul a b =>
    rcases commit_aluStep_cases aluMul a b s (i := .mul a b) rfl with h | ⟨ra, rb, rfl, rfl⟩
    · exact .inl h
    · exact .inr ⟨_, .mul ra rb, exec_mul ra rb s⟩
  | add a b =>
    rcases commit_aluStep_cases aluAdd a b s (i := .add a b) rfl with h | ⟨ra, rb, rfl, rfl⟩
    · exact .inl h
    · exact .inr ⟨_, .add ra rb, exec_add ra rb s⟩
  | cmp a b =>
    rcases commit_aluStep_cases aluCmp a b s (i := .cmp a b) rfl with h | ⟨ra, rb, rfl, rfl⟩
    · exact .inl h
    · exact .inr ⟨_, .cmp ra rb, exec_cmp ra rb s⟩
  | push b =>
    rcases operand_cases s b with ⟨hb, _⟩ | ⟨r, rfl⟩
    · exact .inl ⟨_, .invalidRegister b hb (namesRegister_eq_false hb), commit_invalid hb _⟩
    · rw [exec_push]
      rcases decSp_cases s with ⟨h, hc⟩ | ⟨h, h0, hf⟩
      · exact .inr ⟨_, .push r hc, by rw [h]; rfl⟩
      · exact .inl ⟨_, .pushOverflow r h0 hf, by rw [h]; rfl⟩
  | pop b =>
    rcases operand_cases s b with ⟨hb, _⟩ | ⟨r, rfl⟩
    · exact .inl ⟨_, .invalidRegister b hb (namesRegister_eq_false hb), commit_invalid hb _⟩
    · rw [exec_pop]
      rcases incSp_cases (s.setReg r (s.readByte s.sp)) with ⟨h, hc⟩ | ⟨h, h0, hf⟩
      · exact .inr ⟨_, .pop r hc, by rw [h]; rfl⟩
      · exact .inl ⟨_, .popUnderflow r h0 hf, by rw [h]; rfl⟩
  | call b =>
    rcases operand_cases s b with ⟨hb, _⟩ | ⟨r, rfl⟩
    · exact .inl ⟨_, .invalidRegister b hb (namesRegister_eq_false hb), commit_invalid hb _⟩
    · rw [exec_call]
      rcases chk_cases s (s.pc + 2) with ⟨hr, hrc⟩ | ⟨hr, hlt, hf⟩
      · rcases decSp_cases s with ⟨h, hc⟩ | ⟨h, h0, hf⟩
        · exact .inr ⟨_, .call r hc hrc, by rw [hr, h]; rfl⟩
        · exact .inl ⟨_, .callOverflow r h0 hf, by rw [hr, h]; rfl⟩
      · exact .inl ⟨_, .returnAddress r hlt hf, by rw [hr]; rfl⟩
  | ret =>
    rw [exec_ret]
    rcases incSp_cases s with ⟨h, hc⟩ | ⟨h, h0, hf⟩
    · exact .inr ⟨_, .ret hc, by rw [h]; rfl⟩
    · exact .inl ⟨_, .retUnderflow h0 hf, by rw [h]; rfl⟩
  | jmp b =>
    rcases operand_cases s b with ⟨hb, _⟩ | ⟨r, rfl⟩
    · exact .inl ⟨_, .invalidRegister b hb (namesRegister_eq_false hb), commit_invalid hb _⟩
    · exact .inr ⟨_, .jmp r, exec_jmp r s⟩
  | jeq b =>
    rcases operand_cases s b with ⟨hb, _⟩ | ⟨r, rfl⟩
    · exact .inl ⟨_, .invalidRegister b hb (namesRegister_eq_false hb), commit_invalid hb _⟩
    · exact .inr ⟨_, .jeq r, exec_jeq r s⟩
  | jne b =>
    rcases operand_cases s b with ⟨hb, _⟩ | ⟨r, rfl⟩
    · exact .inl ⟨_, .invalidRegister b hb (namesRegister_eq_false hb), commit_invalid hb _⟩
    · exact .inr ⟨_, .jne r, exec_jne r s⟩

/-- The same, read from a next state. -/
theorem exec_eq_next {i : Instr} {s t : State} (h : exec i s = .next t) :
    (∃ e, ExecRaises s i e ∧ t = takeFault e s) ∨ Completes s i t := by
  rcases exec_cases i s with ⟨e, he, h'⟩ | ⟨u, hu, h'⟩ <;> rw [h', Host.Outcome.next.injEq] at h
  · exact .inl ⟨e, he, h.symm⟩
  · exact .inr (h ▸ hu)

end Sys2Proof.Machine
end

