-- ==== Sys2Proof/Laws/Memory.lean ====
section
/-! SUPPORT. The laws of memory: a read after a write, the canonical form and that every operation keeps it, and that
two canonical memories that read alike are equal. -/

namespace Sys2Proof.Machine

/-! ## Reading -/

theorem Memory.readAt_cons (a b : Nat) (v : Byte) (m : Memory) (h : Memory.readAt m a = Memory.unlisted) :
    Memory.readAt (Memory.cons a v m) b = if b = a then v else Memory.readAt m b := by
  unfold Memory.cons
  by_cases hv : v = Memory.unlisted <;> by_cases hb : b = a
  · subst hb; simp [hv, h]
  · simp [hv, hb]
  · simp [hv, hb, Memory.readAt]
  · simp [hv, hb, Memory.readAt, Ne.symm hb]

/-- A canonical memory lists nothing below its bound. -/
theorem Memory.readAt_of_lt {lo a : Nat} {m : Memory} (h : Memory.wfFrom lo m = true) (ha : a < lo) :
    Memory.readAt m a = Memory.unlisted := by
  induction m generalizing lo with
  | nil => rfl
  | cons c m ih =>
    obtain ⟨k, v⟩ := c
    simp only [Memory.wfFrom, Bool.and_eq_true, decide_eq_true_eq] at h
    have hk : k ≠ a := by omega
    simp only [Memory.readAt, hk, if_false]
    exact ih h.2 (by omega)

/-- A read after a write: the byte written at the address written, and elsewhere what stood there. -/
theorem Memory.readAt_writeAt {lo : Nat} {m : Memory} (h : Memory.wfFrom lo m = true) (a b : Nat) (v : Byte) :
    Memory.readAt (Memory.writeAt m a v) b = if b = a then v else Memory.readAt m b := by
  induction m generalizing lo with
  | nil => exact Memory.readAt_cons a b v [] rfl
  | cons c m ih =>
    obtain ⟨k, w⟩ := c
    simp only [Memory.wfFrom, Bool.and_eq_true, decide_eq_true_eq] at h
    unfold Memory.writeAt
    by_cases h1 : a < k
    · simp only [h1, if_true]
      refine Memory.readAt_cons a b v _ ?_
      have hk : k ≠ a := by omega
      simp only [Memory.readAt, hk, if_false]
      exact Memory.readAt_of_lt h.2 (by omega)
    · by_cases h2 : a = k
      · subst h2
        simp only [h1, if_false, if_true]
        rw [Memory.readAt_cons a b v m (Memory.readAt_of_lt h.2 (by omega))]
        by_cases hb : b = a
        · simp [hb]
        · simp [Memory.readAt, hb, Ne.symm hb]
      · simp only [h1, h2, if_false, Memory.readAt, ih h.2]
        by_cases hb : k = b
        · subst hb; simp [Ne.symm h2]
        · simp [hb]

/-! ## The canonical form -/

theorem Memory.wfFrom_mono {lo lo' : Nat} {m : Memory} (h : Memory.wfFrom lo m = true) (hl : lo' ≤ lo) :
    Memory.wfFrom lo' m = true := by
  cases m with
  | nil => rfl
  | cons c m =>
    obtain ⟨k, v⟩ := c
    simp only [Memory.wfFrom, Bool.and_eq_true, decide_eq_true_eq] at h ⊢
    exact ⟨⟨⟨by omega, h.1.1.2⟩, h.1.2⟩, h.2⟩

theorem Memory.wfFrom_cons {lo a : Nat} {m : Memory} (v : Byte) (h : Memory.wfFrom (a + 1) m = true)
    (hl : lo ≤ a) (ha : a < memSize) : Memory.wfFrom lo (Memory.cons a v m) = true := by
  unfold Memory.cons
  by_cases hv : v = Memory.unlisted
  · simp only [hv, if_true]
    exact Memory.wfFrom_mono h (by omega)
  · simp [hv, Memory.wfFrom, hl, ha, h]

theorem Memory.wfFrom_writeAt {lo a : Nat} {m : Memory} (v : Byte) (h : Memory.wfFrom lo m = true)
    (hl : lo ≤ a) (ha : a < memSize) : Memory.wfFrom lo (Memory.writeAt m a v) = true := by
  induction m generalizing lo with
  | nil => exact Memory.wfFrom_cons v rfl hl ha
  | cons c m ih =>
    obtain ⟨k, w⟩ := c
    have h' := h
    simp only [Memory.wfFrom, Bool.and_eq_true, decide_eq_true_eq] at h'
    unfold Memory.writeAt
    by_cases h1 : a < k
    · simp only [h1, if_true]
      refine Memory.wfFrom_cons v ?_ hl ha
      simp only [Memory.wfFrom, Bool.and_eq_true, decide_eq_true_eq]
      exact ⟨⟨⟨by omega, h'.1.1.2⟩, h'.1.2⟩, h'.2⟩
    · by_cases h2 : a = k
      · subst h2
        simp only [h1, if_false, if_true]
        exact Memory.wfFrom_cons v h'.2 hl ha
      · simp only [h1, h2, if_false, Memory.wfFrom, Bool.and_eq_true, decide_eq_true_eq]
        exact ⟨⟨⟨h'.1.1.1, h'.1.1.2⟩, h'.1.2⟩, ih h'.2 (by omega)⟩

/-- A write below 256 keeps the canonical form. -/
theorem Memory.wf_writeAt {m : Memory} (h : m.wf = true) {a : Nat} (ha : a < memSize) (v : Byte) :
    Memory.wf (Memory.writeAt m a v) = true := Memory.wfFrom_writeAt v h (Nat.zero_le a) ha

/-- `MemWrite` keeps the canonical form. -/
theorem State.writeByte_wf {s : State} (h : s.mem.wf = true) (a v : Byte) : (s.writeByte a v).mem.wf = true :=
  Memory.wf_writeAt h a.isLt v

/-- Copying bytes that fit keeps the canonical form. -/
theorem Memory.wf_copyFrom {m : Memory} (h : m.wf = true) (bs : List Byte) {k : Nat} (hk : k + bs.length ≤ memSize) :
    Memory.wf (Memory.copyFrom k bs m) = true := by
  induction bs generalizing k m with
  | nil => exact h
  | cons b bs ih =>
    simp only [List.length_cons] at hk
    exact ih (Memory.wf_writeAt h (by omega) b) (by omega)

/-- Placing bytes for a fetch keeps the canonical form. -/
theorem placeBytes_wf (k : Nat) (bs : List Byte) {s : State} (h : s.mem.wf = true) :
    (placeBytes k bs s).mem.wf = true := by
  induction bs generalizing k s with
  | nil => exact h
  | cons b bs ih => exact ih (k + 1) (State.writeByte_wf h _ b)

theorem State.construct_wf (p : Params) : (State.construct p).mem.wf = true := rfl

/-! ## MemRead after MemWrite -/

/-- In a canonical memory a read after a write gives the byte written there, and what stood there elsewhere. -/
theorem State.readByte_writeByte {s : State} (h : s.mem.wf = true) (a b v : Byte) :
    (s.writeByte a v).readByte b = if b = a then v else s.readByte b := by
  unfold State.readByte
  rw [State.writeByte_mem, Memory.readAt_writeAt h]
  by_cases hb : b = a
  · simp [hb]
  · have : b.toNat ≠ a.toNat := fun e => hb (BitVec.eq_of_toNat_eq e)
    simp [hb, this]

theorem Memory.readAt_cons_ne {a b : Nat} (h : b ≠ a) (v : Byte) (m : Memory) :
    Memory.readAt (Memory.cons a v m) b = Memory.readAt m b := by
  unfold Memory.cons
  by_cases hv : v = Memory.unlisted <;> simp [hv, Memory.readAt, Ne.symm h]

/-- A write leaves every other cell alone, canonical memory or not. -/
theorem Memory.readAt_writeAt_ne {a b : Nat} (h : b ≠ a) (v : Byte) (m : Memory) :
    Memory.readAt (Memory.writeAt m a v) b = Memory.readAt m b := by
  induction m with
  | nil => exact Memory.readAt_cons_ne h v []
  | cons c m ih =>
    obtain ⟨k, w⟩ := c
    unfold Memory.writeAt
    split
    · exact Memory.readAt_cons_ne h v _
    · split
      · next h2 => subst h2; rw [Memory.readAt_cons_ne h]; simp [Memory.readAt, Ne.symm h]
      · simp [Memory.readAt, ih]

theorem State.readByte_writeByte_ne {a b : Byte} (h : b ≠ a) (s : State) (v : Byte) :
    (s.writeByte a v).readByte b = s.readByte b :=
  Memory.readAt_writeAt_ne (fun e => h (BitVec.eq_of_toNat_eq e)) v s.mem

/-- Two canonical memories that read alike at every address are equal. -/
theorem Memory.eq_of_readAt_eq {lo : Nat} {m n : Memory} (hm : Memory.wfFrom lo m = true)
    (hn : Memory.wfFrom lo n = true) (h : ∀ a, Memory.readAt m a = Memory.readAt n a) : m = n := by
  induction m generalizing lo n with
  | nil =>
    cases n with
    | nil => rfl
    | cons c n =>
      obtain ⟨k, v⟩ := c
      simp only [Memory.wfFrom, Bool.and_eq_true, bne_iff_ne] at hn
      have := h k
      simp [Memory.readAt] at this
      exact absurd this.symm hn.1.2
  | cons c m ih =>
    obtain ⟨k, v⟩ := c
    have hm' := hm
    simp only [Memory.wfFrom, Bool.and_eq_true, bne_iff_ne, decide_eq_true_eq] at hm'
    cases n with
    | nil =>
      have := h k
      simp [Memory.readAt] at this
      exact absurd this hm'.1.2
    | cons d n =>
      obtain ⟨l, w⟩ := d
      have hn' := hn
      simp only [Memory.wfFrom, Bool.and_eq_true, bne_iff_ne, decide_eq_true_eq] at hn'
      have hkl : k = l := by
        rcases Nat.lt_trichotomy k l with hlt | heq | hgt
        · have := h k
          have hne : l ≠ k := by omega
          simp only [Memory.readAt, if_true, hne, if_false] at this
          rw [Memory.readAt_of_lt hn'.2 (by omega)] at this
          exact absurd this hm'.1.2
        · exact heq
        · have := h l
          have hne : k ≠ l := by omega
          simp only [Memory.readAt, if_true, hne, if_false] at this
          rw [Memory.readAt_of_lt hm'.2 (by omega)] at this
          exact absurd this.symm hn'.1.2
      subst hkl
      have hv : v = w := by simpa [Memory.readAt] using h k
      subst hv
      congr 1
      refine ih hm'.2 hn'.2 fun a => ?_
      by_cases ha : k = a
      · subst ha
        rw [Memory.readAt_of_lt hm'.2 (by omega), Memory.readAt_of_lt hn'.2 (by omega)]
      · simpa [Memory.readAt, ha] using h a

end Sys2Proof.Machine
end

