-- ==== Sys2Proof/Laws/PerInstr.lean ====
section
/-! SUPPORT. Statements made per instruction. `EncodingHead`: the encoding of an instruction begins with the opcode of a
row of the opcode map that carries its mnemonic, and has that row's length (R48, R49, R53). -/

namespace Sys2Proof.Laws.EncodingHead

/-- The encoding agrees with one row of the opcode map in mnemonic, opcode byte and length. -/
def Statement (i : Instr) : Prop :=
  ∃ row ∈ opcodeTable, row.op = i.mnemonic ∧ (encode i).head? = some row.opcode ∧ (encode i).length = row.len ∧
    i.length = row.len

theorem hlt : Statement .hlt := ⟨⟨0x01, .hlt, .n, 1, none, false, true⟩, by decide, rfl, rfl, rfl, rfl⟩
theorem ldi (r v : Byte) : Statement (.ldi r v) :=
  ⟨⟨0x82, .ldi, .ri, 3, none, false, false⟩, by decide, rfl, rfl, rfl, rfl⟩
theorem prn (r : Byte) : Statement (.prn r) := ⟨⟨0x47, .prn, .r, 2, none, false, false⟩, by decide, rfl, rfl, rfl, rfl⟩
theorem mul (a b : Byte) : Statement (.mul a b) :=
  ⟨⟨0xA2, .mul, .rr, 3, some aluMul, false, false⟩, by decide, rfl, rfl, rfl, rfl⟩
theorem add (a b : Byte) : Statement (.add a b) :=
  ⟨⟨0xA0, .add, .rr, 3, some aluAdd, false, false⟩, by decide, rfl, rfl, rfl, rfl⟩
theorem cmp (a b : Byte) : Statement (.cmp a b) :=
  ⟨⟨0xA7, .cmp, .rr, 3, some aluCmp, false, false⟩, by decide, rfl, rfl, rfl, rfl⟩
theorem push (r : Byte) : Statement (.push r) := ⟨⟨0x45, .push, .r, 2, none, false, false⟩, by decide, rfl, rfl, rfl, rfl⟩
theorem pop (r : Byte) : Statement (.pop r) := ⟨⟨0x46, .pop, .r, 2, none, false, false⟩, by decide, rfl, rfl, rfl, rfl⟩
theorem call (r : Byte) : Statement (.call r) := ⟨⟨0x50, .call, .r, 2, none, true, false⟩, by decide, rfl, rfl, rfl, rfl⟩
theorem ret : Statement .ret := ⟨⟨0x11, .ret, .n, 1, none, true, false⟩, by decide, rfl, rfl, rfl, rfl⟩
theorem jmp (r : Byte) : Statement (.jmp r) := ⟨⟨0x54, .jmp, .r, 2, none, true, false⟩, by decide, rfl, rfl, rfl, rfl⟩
theorem jeq (r : Byte) : Statement (.jeq r) := ⟨⟨0x55, .jeq, .r, 2, none, true, false⟩, by decide, rfl, rfl, rfl, rfl⟩
theorem jne (r : Byte) : Statement (.jne r) := ⟨⟨0x56, .jne, .r, 2, none, true, false⟩, by decide, rfl, rfl, rfl, rfl⟩

end Sys2Proof.Laws.EncodingHead
end

