-- ==== Sys2Proof/Laws/Step.lean ====
section
/-! SUPPORT. Everything a fetch and a step can do. -/

namespace Sys2Proof.Machine

/-! ## Code at PC, for the three lengths -/

theorem codeAt_one {s : State} {a : Byte} :
    CodeAt s [a] ↔ s.pc ≤ 255 ∧ s.readByte (BitVec.ofNat 8 s.pc) = a := by
  simp +contextual [CodeAt]

theorem codeAt_two {s : State} {a b : Byte} :
    CodeAt s [a, b] ↔ s.pc ≤ 255 ∧ s.readByte (BitVec.ofNat 8 s.pc) = a ∧
      (s.params.boundsPolicy = .fault → s.pc + 1 ≤ 255) ∧ s.readByte (BitVec.ofNat 8 (s.pc + 1)) = b := by
  simp +contextual [CodeAt, Fin.forall_fin_succ]

theorem codeAt_three {s : State} {a b c : Byte} :
    CodeAt s [a, b, c] ↔ s.pc ≤ 255 ∧ s.readByte (BitVec.ofNat 8 s.pc) = a ∧
      (s.params.boundsPolicy = .fault → s.pc + 1 ≤ 255) ∧ s.readByte (BitVec.ofNat 8 (s.pc + 1)) = b ∧
      (s.params.boundsPolicy = .fault → s.pc + 2 ≤ 255) ∧ s.readByte (BitVec.ofNat 8 (s.pc + 2)) = c := by
  simp +contextual [CodeAt, Fin.forall_fin_succ, and_assoc]

/-! ## Fetch -/

theorem fetchByte_cases (s : State) (k : Nat) :
    (fetchByte s k = .ok (s.readByte (BitVec.ofNat 8 (s.pc + k))) ∧ (s.pc + k ≤ 255 ∨ s.params.boundsPolicy = .wrap)) ∨
    (fetchByte s k = .error (.memoryBoundsError (s.pc + k) s.pc) ∧ 255 < s.pc + k ∧ s.params.boundsPolicy = .fault) := by
  unfold fetchByte
  rcases chk_cases s (s.pc + k) with ⟨h, hc⟩ | ⟨h, hc⟩
  · exact .inl ⟨by rw [h]; rfl, hc⟩
  · exact .inr ⟨by rw [h]; rfl, hc⟩

theorem fetchByte_eq_ok {s : State} {k : Nat} {b : Byte} (h : fetchByte s k = .ok b) :
    b = s.readByte (BitVec.ofNat 8 (s.pc + k)) ∧ (s.params.boundsPolicy = .fault → s.pc + k ≤ 255) := by
  rcases fetchByte_cases s k with ⟨h', hc⟩ | ⟨h', _⟩ <;> rw [h'] at h
  · refine ⟨(Except.ok.inj h).symm, fun hf => ?_⟩
    rcases hc with hc | hc
    · exact hc
    · rw [hc] at hf; exact absurd hf (by decide)
  · cases h

theorem fetchByte_eq_error {s : State} {k : Nat} {e : ErrorRecord} (h : fetchByte s k = .error e) :
    e = .memoryBoundsError (s.pc + k) s.pc ∧ 255 < s.pc + k ∧ s.params.boundsPolicy = .fault := by
  rcases fetchByte_cases s k with ⟨h', _⟩ | ⟨h', hc⟩ <;> rw [h'] at h
  · cases h
  · exact ⟨(Except.error.inj h).symm, hc⟩

/-- The errors of a fetch (R66, R67, R68): PC past 255; an opcode with no row; an operand byte past 255 under `Fault`,
whose address is then 256. -/
theorem fetchInstr_error {s : State} {e : ErrorRecord} (h : fetchInstr s = .error e) :
    (255 < s.pc ∧ e = .memoryBoundsError s.pc s.pc) ∨
    (s.pc ≤ 255 ∧ decoder s.params.jumpsAsUnknown (s.readByte (BitVec.ofNat 8 s.pc)) = none ∧
      e = .unknownInstruction (s.readByte (BitVec.ofNat 8 s.pc)) s.pc) ∨
    (s.pc ≤ 255 ∧ s.params.boundsPolicy = .fault ∧ e = .memoryBoundsError 256 s.pc ∧
      ∃ row, decoder s.params.jumpsAsUnknown (s.readByte (BitVec.ofNat 8 s.pc)) = some row) := by
  unfold fetchInstr at h
  by_cases hpc : 255 < s.pc
  · rw [if_pos hpc] at h
    exact .inl ⟨hpc, (Except.error.inj h).symm⟩
  · rw [if_neg hpc] at h
    have hle : s.pc ≤ 255 := by omega
    rcases decodeWith_error h with h0 | ⟨ir, h0, h⟩
    · obtain ⟨_, h1, _⟩ := fetchByte_eq_error h0
      omega
    · have hir : ir = s.readByte (BitVec.ofNat 8 s.pc) := (fetchByte_eq_ok h0).1
      subst hir
      rcases h with ⟨hn, he⟩ | ⟨row, hrow, ⟨_, h1⟩ | ⟨_, ⟨b1, h1⟩, h2⟩⟩
      · exact .inr (.inl ⟨hle, hn, he⟩)
      · obtain ⟨he, h1, hf⟩ := fetchByte_eq_error h1
        have : s.pc + 1 = 256 := by omega
        rw [this] at he
        exact .inr (.inr ⟨hle, hf, he, row, hrow⟩)
      · obtain ⟨he, h2, hf⟩ := fetchByte_eq_error h2
        have := (fetchByte_eq_ok h1).2 hf
        have : s.pc + 2 = 256 := by omega
        rw [this] at he
        exact .inr (.inr ⟨hle, hf, he, row, hrow⟩)

/-- A fetch that gives an instruction found its encoding at PC. -/
theorem fetchInstr_ok {s : State} {i : Instr} (h : fetchInstr s = .ok i) : CodeAt s (encode i) := by
  unfold fetchInstr at h
  by_cases hpc : 255 < s.pc
  · rw [if_pos hpc] at h; cases h
  · rw [if_neg hpc] at h
    obtain ⟨ir, row, b1, b2, h0, hrow, rfl, h1, h2⟩ := decodeWith_ok h
    obtain ⟨hmem, hop, _⟩ := decoder_row hrow
    have e0 := fetchByte_eq_ok h0
    have e1 := fun hl => fetchByte_eq_ok (h1 hl)
    have e2 := fun hl => fetchByte_eq_ok (h2 hl)
    rw [encode_assemble hmem, hop]
    rcases opcodeTable_len hmem with hl | hl | hl <;> rw [hl]
    · exact codeAt_one.2 ⟨by omega, e0.1.symm⟩
    · obtain ⟨v1, f1⟩ := e1 (by omega)
      exact codeAt_two.2 ⟨by omega, e0.1.symm, f1, v1.symm⟩
    · obtain ⟨v1, f1⟩ := e1 (by omega)
      obtain ⟨v2, f2⟩ := e2 hl
      exact codeAt_three.2 ⟨by omega, e0.1.symm, f1, v1.symm, f2, v2.symm⟩

/-! ## Step -/

theorem step_of_running {s : State} (h : s.status = .running) :
    step s = match fetchInstr s with
      | .ok i => exec i s
      | .error e => .next (takeFault e s) := by
  cases hf : fetchInstr s <;> simp only [step, h, hf]

/-- EVERYTHING A STEP CAN DO: it is a step of a running core, and it takes the error of its fetch, or an error of its
instruction's execution, or the instruction completes. -/
theorem step_cases {s t : State} (h : step s = .next t) :
    s.status = .running ∧
    ((∃ e, fetchInstr s = .error e ∧ t = takeFault e s) ∨
     (∃ i e, fetchInstr s = .ok i ∧ ExecRaises s i e ∧ t = takeFault e s) ∨
     (∃ i, fetchInstr s = .ok i ∧ Completes s i t)) := by
  have hr : s.status = .running := by
    unfold step at h
    split at h
    · assumption
    all_goals cases h
  refine ⟨hr, ?_⟩
  rw [step_of_running hr] at h
  split at h
  · next i hi =>
    rcases exec_eq_next h with ⟨e, he, rfl⟩ | hc
    · exact .inr (.inl ⟨i, e, hi, he, rfl⟩)
    · exact .inr (.inr ⟨i, hi, hc⟩)
  · next e he => exact .inl ⟨e, he, (Host.Outcome.next.inj h).symm⟩

/-- The alu select the decoder gives for an opcode is the one its instruction's execution hands to the alu (R60, R70). -/
theorem exec_uses_decoder_select {jau : Bool} {ir : Byte} {row : OpcodeRow} {sel : BitVec 2}
    (h : decoder jau ir = some row) (hs : row.aluOp = some sel) (a b : Byte) (s : State) :
    exec (assemble row.op a b) s = commit s (aluStep sel a b s) := by
  rcases opcodeTable_cases (decoder_row h).1 with h | h | h | h | h | h | h | h | h | h | h | h | h <;>
    subst h <;> cases hs <;> rfl

/-! ## Runs of the host's machine -/

theorem core_run_zero (s : State) : Sys2Proof.core.run 0 s = .next s := rfl

/-- The first step of a longer run. -/
theorem core_run_succ {s t : State} (n : Nat) (h : step s = .next t) :
    Sys2Proof.core.run (n + 1) s = Sys2Proof.core.run n t :=
  (Host.Core.run.eq_2 Sys2Proof.core s n).trans (by
    rw [show Sys2Proof.core.step s = Host.Outcome.next t from h])

end Sys2Proof.Machine
end

