-- ==== Sys2Proof/Tests/Slice0.lean ====
section
/-! SUPPORT. The model's own tests. Expected results are those of spec/30_encoding.md R53, R63 and of the vectors V1 to V64
of spec/95_test_vectors.md, each named where it is used; then a witness for the hypotheses of each statement. -/

namespace Sys2Proof.Tests

open Sys2Proof.Machine

/-! ## Helpers -/

/-- The next state, if there is one. -/
def nextOf (o : Host.Outcome State Fault Refusal) : Option State :=
  match o with
  | .next t => some t
  | .fault _ => none
  | .refused _ => none

/-- A running state with bytes at PC. -/
def at_ (p : Params) (pc : Nat) (bytes : List Byte) : State :=
  resume (placeBytes pc bytes ((State.construct p).setPc pc))

/-- The default parameters, and those with one changed. -/
abbrev dflt : Params := Params.default
abbrev wrapP : Params := { Params.default with boundsPolicy := .wrap }
abbrev unknownP : Params := { Params.default with jumpsAsUnknown := true }

/-- Status and PC after one step. -/
def statusPc (s : State) : Option (Status × Nat) := (nextOf (step s)).map fun t => (t.status, t.pc)

/-! ## WellFormed refuses an ill-formed term of each check -/

theorem test_illformed_ldi : Instr.wellFormed (.ldi 8 0) = false := by decide
theorem test_illformed_prn : Instr.wellFormed (.prn 8) = false := by decide
theorem test_illformed_mul : (Instr.wellFormed (.mul 8 0), Instr.wellFormed (.mul 0 8)) = (false, false) := by decide
theorem test_illformed_add : (Instr.wellFormed (.add 8 0), Instr.wellFormed (.add 0 8)) = (false, false) := by decide
theorem test_illformed_cmp : (Instr.wellFormed (.cmp 8 0), Instr.wellFormed (.cmp 0 8)) = (false, false) := by decide
theorem test_illformed_push : Instr.wellFormed (.push 255) = false := by decide
theorem test_illformed_pop : Instr.wellFormed (.pop 8) = false := by decide
theorem test_illformed_call : Instr.wellFormed (.call 8) = false := by decide
theorem test_illformed_jumps :
    (Instr.wellFormed (.jmp 8), Instr.wellFormed (.jeq 8), Instr.wellFormed (.jne 8)) = (false, false, false) := by decide
theorem test_wellformed_any_immediate : Instr.wellFormed (.ldi 7 255) = true := by decide

/-! ## Decoding of words written out bit by bit from R53 -/

theorem test_decode_hlt : decode false [0b00000001] = .ok (.hlt, []) := by decide
theorem test_decode_ldi : decode false [0b10000010, 0b00000000, 0b00001000] = .ok (.ldi 0 8, []) := by decide
theorem test_decode_prn : decode false [0b01000111, 0b00000111] = .ok (.prn 7, []) := by decide
theorem test_decode_mul : decode false [0b10100010, 0b00000001, 0b00000010] = .ok (.mul 1 2, []) := by decide
theorem test_decode_add : decode false [0b10100000, 0b00000011, 0b00000100] = .ok (.add 3 4, []) := by decide
theorem test_decode_cmp : decode false [0b10100111, 0b00000101, 0b00000110] = .ok (.cmp 5 6, []) := by decide
theorem test_decode_push : decode false [0b01000101, 0b00000010] = .ok (.push 2, []) := by decide
theorem test_decode_pop : decode false [0b01000110, 0b00000011] = .ok (.pop 3, []) := by decide
theorem test_decode_call : decode false [0b01010000, 0b00000001] = .ok (.call 1, []) := by decide
theorem test_decode_ret : decode false [0b00010001] = .ok (.ret, []) := by decide
theorem test_decode_jmp : decode false [0b01010100, 0b00000100] = .ok (.jmp 4, []) := by decide
theorem test_decode_jeq : decode false [0b01010101, 0b00000011] = .ok (.jeq 3, []) := by decide
theorem test_decode_jne : decode false [0b01010110, 0b00000101] = .ok (.jne 5, []) := by decide
/-- V59, R55: 0x40 is not made legal by its bits 7:6. -/
theorem test_decode_unknown : decode false [0x40, 0] = .error (.unknownOpcode 0x40) := by decide
theorem test_decode_truncated : decode false [0x82, 0] = .error .truncated := by decide
theorem test_decode_jump_unknown : decode true [0x54, 4] = .error (.unknownOpcode 0x54) := by decide

/-- Words as spec/opcode_table.json numbers them ("fixed": the opcode is the row's top byte). -/
theorem test_table_words :
    [decodeTableWord 8 0x01, decodeTableWord 24 0x820008, decodeTableWord 16 0x4700, decodeTableWord 24 0xA20001,
      decodeTableWord 24 0xA00001, decodeTableWord 24 0xA70001, decodeTableWord 16 0x4500, decodeTableWord 16 0x4602,
      decodeTableWord 16 0x5001, decodeTableWord 8 0x11, decodeTableWord 16 0x5404, decodeTableWord 16 0x5503,
      decodeTableWord 16 0x5603, decodeTableWord 8 0x00] =
    [some .hlt, some (.ldi 0 8), some (.prn 0), some (.mul 0 1), some (.add 0 1), some (.cmp 0 1), some (.push 0),
      some (.pop 2), some (.call 1), some .ret, some (.jmp 4), some (.jeq 3), some (.jne 3), none] := by decide

/-- From reset, the word placed where the next step fetches is the instruction that step runs. -/
theorem test_fetch_word_runs_first :
    (fetchInstr (State.reset.withFetchWord 24 0x820708), statusPc (State.reset.withFetchWord 8 0x01),
      statusPc (State.reset.withFetchWord 24 0x820708)) =
    (.ok (.ldi 7 8), some (.halted, 0), some (.running, 3)) := by decide

/-! ## One step: the spec's vectors -/

/-- V10: HLT at 255 halts, PC stays. -/
theorem test_hlt_v10 : statusPc (at_ dflt 255 [0x01]) = some (.halted, 255) := by decide
/-- R65: at reset the status is Stopped and the core takes no step. -/
theorem test_reset_takes_no_step : nextOf (step State.reset) = none := by decide
/-- V3: no sign extension. -/
theorem test_ldi_v3 : (nextOf (step (at_ dflt 0 [0x82, 3, 0xFF]))).map (fun t => (t.reg .r3, t.pc)) = some (0xFF, 3) := by
  decide
/-- V6: under `Wrap` the immediate of an LDI at 254 comes from cell 0. -/
theorem test_ldi_v6 : (nextOf (step (at_ wrapP 254 [0x82, 0, 9]))).map (fun t => (t.reg .r0, t.pc)) = some (9, 1) := by
  decide
/-- V8: PRN R7 outputs SP. -/
theorem test_prn_v8 : (nextOf (step (at_ dflt 0 [0x47, 7]))).map (fun t => (t.out, t.pc)) = some ([0xF4], 2) := by decide
/-- V9, with a byte already in `out`: the new one is last. -/
theorem test_prn_v9 :
    (nextOf (step (((at_ dflt 0 [0x47, 0]).setReg .r0 0x48).emit 1))).map (·.out) = some [1, 0x48] := by decide
/-- V14: 255 * 255 = 65025, which is 1 modulo 256. -/
theorem test_mul_v14 :
    (nextOf (step (((at_ dflt 0 [0xA2, 0, 1]).setReg .r0 0xFF).setReg .r1 0xFF))).map (fun t => (t.reg .r0, t.reg .r1)) =
      some (1, 0xFF) := by decide
/-- V25: regA is checked first. -/
theorem test_mul_v25 : statusPc (at_ dflt 0 [0xA2, 9, 8]) = some (.faulted (.invalidRegister 9 0), 0) := by decide
/-- V18: 200 + 100 = 44 modulo 256. -/
theorem test_add_v18 :
    (nextOf (step (((at_ dflt 0 [0xA0, 0, 1]).setReg .r0 200).setReg .r1 100))).map (fun t => (t.reg .r0, t.reg .r1)) =
      some (44, 100) := by decide
/-- V20: the same register twice. -/
theorem test_add_v20 :
    (nextOf (step ((at_ dflt 0 [0xA0, 0, 0]).setReg .r0 130))).map (·.reg .r0) = some 4 := by decide
/-- V22: unsigned, regA against regB. -/
theorem test_cmp_v22 :
    (nextOf (step (((at_ dflt 0 [0xA7, 0, 1]).setReg .r0 0x80).setReg .r1 1))).map (·.fl) = some 2 := by decide
/-- V24: the old bits are cleared. -/
theorem test_cmp_v24 :
    (nextOf (step (((at_ dflt 0 [0xA7, 3, 3]).setReg .r3 9).setFl 4))).map (·.fl) = some 1 := by decide
/-- V29: PUSH R7 stores the decremented SP. -/
theorem test_push_v29 :
    (nextOf (step (at_ dflt 0 [0x45, 7]))).map (fun t => (t.sp, t.readByte 0xF3, t.pc)) = some (0xF3, 0xF3, 2) := by decide
/-- V31: under `Wrap` from SP = 0. -/
theorem test_push_v31 :
    (nextOf (step (((at_ wrapP 0 [0x45, 0]).setReg .r0 9).setSp 0))).map (fun t => (t.sp, t.readByte 0xFF)) =
      some (0xFF, 9) := by decide
/-- V33: POP R7 gives the popped byte plus 1. -/
theorem test_pop_v33 :
    (nextOf (step (((at_ dflt 0 [0x46, 7]).setSp 0xF3).writeByte 0xF3 0x20))).map (·.sp) = some 0x21 := by decide
/-- V34: the popped byte is the value incremented. -/
theorem test_pop_v34 :
    (nextOf (step (((at_ dflt 0 [0x46, 7]).setSp 0xF3).writeByte 0xF3 0xFF))).map (fun t => (t.status, t.sp)) =
      some (.faulted (.stackUnderflow 255 0), 0xF3) := by decide
/-- V40: CALL R7 goes to the new SP. -/
theorem test_call_v40 :
    (nextOf (step (at_ dflt 8 [0x50, 7]))).map (fun t => (t.sp, t.readByte 0xF3, t.pc)) = some (0xF3, 0x0A, 0xF3) := by
  decide
/-- V42: the return address is checked before the stack. -/
theorem test_call_v42 :
    statusPc ((at_ dflt 254 [0x50, 1]).setSp 0) = some (.faulted (.memoryBoundsError 256 254), 254) := by decide
/-- V47: a RET at 255 runs. -/
theorem test_ret_v47 :
    (nextOf (step (((at_ dflt 255 [0x11]).setSp 0xF2).writeByte 0xF2 7))).map (fun t => (t.pc, t.sp)) = some (7, 0xF3) := by
  decide
/-- V46. -/
theorem test_ret_v46 : statusPc ((at_ dflt 0 [0x11]).setSp 0xFF) = some (.faulted (.stackUnderflow 255 0), 0) := by decide
/-- V48. -/
theorem test_jmp_v48 : statusPc ((at_ dflt 28 [0x54, 4]).setReg .r4 30) = some (.running, 30) := by decide
/-- V58. -/
theorem test_jmp_v58 :
    statusPc ((at_ unknownP 0 [0x54, 4]).setReg .r4 30) = some (.faulted (.unknownInstruction 0x54 0), 0) := by decide
/-- V52: G does not make JEQ jump. -/
theorem test_jeq_v52 : statusPc (((at_ dflt 18 [0x55, 3]).setReg .r3 23).setFl 2) = some (.running, 20) := by decide
/-- V53: the operand is checked though the jump would not be taken. -/
theorem test_jeq_v53 : statusPc (at_ dflt 18 [0x55, 9]) = some (.faulted (.invalidRegister 9 18), 18) := by decide
/-- V55: L does not stop JNE. -/
theorem test_jne_v55 : statusPc (((at_ dflt 20 [0x56, 3]).setReg .r3 12).setFl 4) = some (.running, 12) := by decide
/-- V56. -/
theorem test_jne_v56 : statusPc (((at_ dflt 20 [0x56, 3]).setReg .r3 12).setFl 1) = some (.running, 22) := by decide
/-- V61: the fetch at 256. -/
theorem test_fetch_v61 : statusPc (at_ dflt 256 []) = some (.faulted (.memoryBoundsError 256 256), 256) := by decide
/-- V63, on the error alone. -/
theorem test_load_v63 :
    load (List.replicate 257 1) State.reset = .error (.failed (.loadError 257)) := by
  unfold load
  rw [if_neg (by decide), if_pos (by rw [List.length_replicate]; decide), List.length_replicate]

/-! ## Witnesses: for each statement with hypotheses, a state and operands that meet them, clause by clause -/

theorem witness_LengthFixedByOpcode :
    decode false (0x82 :: [7, 255]) = .ok (.ldi 7 255, []) ∧ decode false (0x82 :: [8, 0, 1]) = .ok (.ldi 8 0, [1]) := by
  decide
theorem witness_DecodeOfEncode_unknown_jumps :
    (true = true → Instr.ret.mnemonic ≠ .jmp ∧ Instr.ret.mnemonic ≠ .jeq ∧ Instr.ret.mnemonic ≠ .jne) := by decide
theorem witness_DecodedBytesAreTheEncoding : decode false [0xA7, 0xFF, 0, 9] = .ok (.cmp 0xFF 0, [9]) := by decide
theorem witness_StepRunsDecodedInstruction :
    (at_ wrapP 255 [0xA0, 1, 2]).status = .running ∧ CodeAt (at_ wrapP 255 [0xA0, 1, 2]) [0xA0, 1, 2] ∧
      decode (at_ wrapP 255 [0xA0, 1, 2]).params.jumpsAsUnknown [0xA0, 1, 2] = .ok (.add 1 2, []) := by decide
theorem witness_UnknownOpcodeRaises_none :
    (at_ dflt 255 [0x40]).status = .running ∧ CodeAt (at_ dflt 255 [0x40]) [0x40] ∧ decoder false 0x40 = none := by decide
theorem witness_UnknownOpcodeRaises_some :
    (at_ dflt 255 [0x01]).status = .running ∧ CodeAt (at_ dflt 255 [0x01]) [0x01] ∧
      (decoder false 0x01).isSome = true ∧ (nextOf (step (at_ dflt 255 [0x01]))).isSome = true := by decide
theorem witness_IllegalOpcodesRaise_zero :
    (at_ dflt 0 [0x00]).status = .running ∧ CodeAt (at_ dflt 0 [0x00]) [0x00] ∧
      (0x00 : Byte) ∉ [0x01, 0x11, 0x45, 0x46, 0x47, 0x50, 0x54, 0x55, 0x56, 0x82, 0xA0, 0xA2, 0xA7] := by decide
theorem witness_IllegalOpcodesRaise_jump :
    (at_ unknownP 255 [0x56]).status = .running ∧ CodeAt (at_ unknownP 255 [0x56]) [0x56] ∧
      (at_ unknownP 255 [0x56]).params.jumpsAsUnknown = true := by decide
theorem witness_FetchPastMemoryRaises : (at_ dflt 256 []).status = .running ∧ 255 < (at_ dflt 256 []).pc := by decide
theorem witness_OperandPastMemoryRaises :
    (at_ dflt 254 [0x82, 9]).status = .running ∧ (at_ dflt 254 [0x82, 9]).params.boundsPolicy = .fault ∧
      CodeAt (at_ dflt 254 [0x82, 9]) [0x82] ∧
      (decoder false 0x82).map (fun row => decide (256 < (at_ dflt 254 [0x82, 9]).pc + row.len)) = some true := by decide
theorem witness_StepsExactlyWhileRunning :
    (at_ dflt 0 [0x01]).status = .running ∧ State.reset.status ≠ .running := by decide
theorem witness_FaultsArePrecise :
    ∃ t, step (at_ dflt 0 [0x46, 8]) = .next t ∧ t.status = .faulted (.invalidRegister 8 0) := ⟨_, rfl, rfl⟩
theorem witness_UnsupportedAluUnreachable :
    ((decoder false 0xA7).map (·.aluOp) = some (some aluCmp) ∧ (nextOf (step (at_ dflt 0 [0xA7, 0, 0]))).isSome = true) ∧
      ((3 : BitVec 2) ≠ aluAdd ∧ (3 : BitVec 2) ≠ aluMul ∧ (3 : BitVec 2) ≠ aluCmp) := by decide
theorem witness_InvalidRegisterRaises : 8 ≤ (8 : Byte).toNat ∧ (7 : Byte).toNat < 8 ∧ 8 ≤ (255 : Byte).toNat := by decide
theorem witness_LdiStep_253_fault :
    (at_ dflt 253 [0x82, 7, 0xFF]).status = .running ∧
      CodeAt (at_ dflt 253 [0x82, 7, 0xFF]) [0x82, Reg.r7.toByte, 0xFF] ∧ (at_ dflt 253 [0x82, 7, 0xFF]).pc = 253 := by
  decide
theorem witness_LdiStep_253_wrap :
    CodeAt (at_ wrapP 253 [0x82, 0, 1]) [0x82, Reg.r0.toByte, 1] ∧ (at_ wrapP 253 [0x82, 0, 1]).pc = 253 := by decide
theorem witness_LdiStep_invalid :
    CodeAt (at_ dflt 0 [0x82, 8, 1]) [0x82, 8, 1] ∧ 8 ≤ (8 : Byte).toNat := by decide
theorem witness_LdiStep_254_255 :
    (CodeAt (at_ dflt 254 [0x82]) [0x82] ∧ (at_ dflt 254 [0x82]).pc = 254) ∧
      (CodeAt (at_ dflt 255 [0x82]) [0x82] ∧ (at_ dflt 255 [0x82]).pc = 255) := by decide
theorem witness_AddMulAgreeWithSigned :
    ∃ t u, exec (.add Reg.r0.toByte Reg.r7.toByte) State.reset = .next t ∧
      exec (.mul Reg.r0.toByte Reg.r7.toByte) State.reset = .next u := ⟨_, _, rfl, rfl⟩
theorem witness_CmpSetsOneFlag :
    (State.reset.reg .r0).toNat = (State.reset.reg .r1).toNat ∧ (State.reset.reg .r0).toNat < (State.reset.reg .r7).toNat ∧
      ((State.reset.setReg .r0 0xF5).reg .r7).toNat < ((State.reset.setReg .r0 0xF5).reg .r0).toNat := by decide
theorem witness_PushStoresBelowSp_and_PushThenPopRestores :
    (((State.construct wrapP).setSp 0).mem.wf = true ∧ ((State.construct wrapP).setSp 0).params.boundsPolicy = .wrap) ∧
      ((State.reset.setSp 1).mem.wf = true ∧ (State.reset.setSp 1).sp ≠ 0) := by decide
theorem witness_PopLoadsAtSp :
    ((State.construct wrapP).setSp 255).params.boundsPolicy = .wrap ∧ (State.reset.setSp 254).sp ≠ 255 ∧
      (State.reset.writeByte 0xF4 254).readByte (State.reset.writeByte 0xF4 254).sp ≠ 255 := by decide
theorem witness_StackEndsRaiseUnderFault :
    State.reset.params.boundsPolicy = .fault ∧ (State.reset.setSp 0).sp = 0 ∧ (State.reset.setSp 255).sp = 255 ∧
      (State.reset.writeByte 0xF4 255).readByte (State.reset.writeByte 0xF4 255).sp = 255 := by decide
theorem witness_CallPushesReturnAddress_and_CallThenRetReturns :
    (((State.construct wrapP).setSp 0).mem.wf = true ∧ ((State.construct wrapP).setSp 0).params.boundsPolicy = .wrap) ∧
      (((State.reset.setSp 1).setPc 253).mem.wf = true ∧ ((State.reset.setSp 1).setPc 253).pc ≤ 253 ∧
        ((State.reset.setSp 1).setPc 253).sp ≠ 0) := by decide
theorem witness_CallRaisesInOrder :
    State.reset.params.boundsPolicy = .fault ∧ 253 < (State.reset.setPc 254).pc ∧
      ((State.reset.setPc 253).setSp 0).pc ≤ 253 ∧ ((State.reset.setPc 253).setSp 0).sp = 0 := by decide
theorem witness_RetPopsPc :
    ((State.construct wrapP).setSp 255).params.boundsPolicy = .wrap ∧ (State.reset.setSp 254).sp ≠ 255 := by decide
theorem witness_OnlyPushAndCallStore :
    (∃ t, exec (.pop 0) State.reset = .next t) ∧ ∀ r, Instr.pop 0 ≠ .push r ∧ Instr.pop 0 ≠ .call r :=
  ⟨⟨_, rfl⟩, fun _ => ⟨by simp, by simp⟩⟩
theorem witness_PushAndCallStoreOnlyAtNewSp :
    ((∃ t, exec (.push 0) State.reset = .next t) ∧ spDec State.reset State.reset.sp = .ok 0xF3) ∧
      ((∃ t, exec (.call 0) (State.reset.setSp 0) = .next t) ∧
        spDec (State.reset.setSp 0) (State.reset.setSp 0).sp = .error (.stackOverflow 0 0)) :=
  ⟨⟨⟨_, rfl⟩, by decide⟩, ⟨_, rfl⟩, by decide⟩
theorem witness_RegistersOutsideDestinationKept :
    ∃ t, exec (.pop 3) State.reset = .next t ∧ Reg.r2 ∉ writtenRegs (.pop 3) := ⟨_, rfl, by decide⟩
theorem witness_OnlyCmpWritesFlags :
    (∃ t, exec (.add 0 7) State.reset = .next t) ∧ ∀ a b, Instr.add 0 7 ≠ .cmp a b := ⟨⟨_, rfl⟩, fun _ _ => by simp⟩
theorem witness_OnlyEqualBitIsRead :
    (∃ t, exec (.jeq 0) State.reset = .next t) ∧ (0x06 : Byte).getLsbD 0 = State.reset.fl.getLsbD 0 := ⟨⟨_, rfl⟩, by decide⟩
theorem witness_a_step_that_appends :
    ∃ t, step (at_ dflt 0 [0x47, 7]) = .next t ∧ t.out = [0xF4] ∧ fetchInstr (at_ dflt 0 [0x47, 7]) = .ok (.prn 7) :=
  ⟨_, rfl, rfl, rfl⟩
theorem witness_PcAdvancesByLength :
    ∃ t, (at_ dflt 254 [0x45, 0]).status = .running ∧ exec (.push 0) (at_ dflt 254 [0x45, 0]) = .next t ∧
      t.status = .running ∧ t.pc = 256 := ⟨_, rfl, rfl, rfl, rfl⟩
theorem witness_ParametersNeverChange :
    (∃ t, step (at_ wrapP 0 [0x11]) = .next t) ∧ (∃ t, load [1] State.reset = .ok t) ∧ ∃ t, startRun State.reset = .ok t :=
  ⟨⟨_, rfl⟩, ⟨_, rfl⟩, _, rfl⟩
/-- A state for PushIntoCodeRunsNext, at the highest PC its hypotheses allow. -/
abbrev pushIntoCode : State := ((at_ dflt 252 [0x45, 0]).setReg .r0 1).setSp 255
theorem witness_PushIntoCodeRunsNext :
    pushIntoCode.status = .running ∧ pushIntoCode.mem.wf = true ∧ CodeAt pushIntoCode [0x45, Reg.r0.toByte] ∧
      Reg.r0 ≠ .r7 ∧ pushIntoCode.reg .r0 = 0x01 ∧ pushIntoCode.sp.toNat = pushIntoCode.pc + 3 := by decide
theorem witness_StepKeepsInv :
    Inv (at_ dflt 253 [0x82, 0, 9]) ∧ ∃ t, step (at_ dflt 253 [0x82, 0, 9]) = .next t ∧ t.pc = 256 :=
  ⟨⟨by decide, by decide, by decide, trivial⟩, _, rfl, rfl⟩
theorem witness_HostActionsKeepInv :
    Inv State.reset ∧ (∃ t, load [0x01] State.reset = .ok t) ∧ ∃ t, startRun State.reset = .ok t :=
  ⟨⟨by decide, by decide, by decide, trivial⟩, ⟨_, rfl⟩, _, rfl⟩
theorem witness_ReachableStatesMeetInv :
    ∃ s t, Reachable s ∧ step s = .next t ∧ t.status = .halted :=
  ⟨_, _, .startRun (.load [0x01] (.construct dflt) rfl) rfl, rfl, rfl⟩
theorem witness_MemoryZeroUntilLoad :
    ∃ t, load [5, 6] (State.construct dflt) = .ok t ∧ t.readByte 1 = 6 ∧ t.readByte 2 = 0 := ⟨_, rfl, rfl, rfl⟩
theorem witness_PcResetAndKept :
    (∃ t, load [5] State.reset = .ok t) ∧
      (∃ t, step (at_ dflt 9 [0x00]) = .next t ∧ t.status = .faulted (.unknownInstruction 0 9)) ∧
      ∃ t, startRun State.reset = .ok t := ⟨⟨_, rfl⟩, ⟨_, rfl, rfl⟩, _, rfl⟩
theorem witness_LoadCopiesBytes :
    State.reset.mem.wf = true ∧ State.reset.status ≠ .running ∧ (List.replicate 256 (1 : Byte)).length ≤ 256 ∧
      256 < (List.replicate 257 (1 : Byte)).length ∧ (resume State.reset).status = .running :=
  ⟨rfl, by decide, by rw [List.length_replicate], by rw [List.length_replicate]; decide, rfl⟩
theorem witness_RunAgainEndsTheSame :
    (∃ t, step (at_ dflt 11 [0x01]) = .next t ∧ t.status = .halted) ∧
      ∃ t, step (at_ dflt 3 [0x00]) = .next t ∧ t.status = .faulted (.unknownInstruction 0 3) :=
  ⟨⟨_, rfl, rfl⟩, _, rfl, rfl⟩
/-- V49's state. -/
abbrev jumpToSelf : State := (at_ dflt 40 [0x54, 0]).setReg .r0 40
theorem witness_JumpToSelfNeverEnds :
    jumpToSelf.status = .running ∧ jumpToSelf.params.jumpsAsUnknown = false ∧ CodeAt jumpToSelf [0x54, Reg.r0.toByte] ∧
      (jumpToSelf.reg .r0).toNat = jumpToSelf.pc := by decide
theorem witness_HostReadsState : State.reset.status ≠ .running ∧ (resume State.reset).status = .running := by decide

end Sys2Proof.Tests
end

section
/-! The host's actions and the fault entry, each said once, and the rule R23 for PC. -/

namespace Sys2Proof.Machine

@[simp] theorem resume_pc (s : State) : (resume s).pc = s.pc := rfl

/-- R117: `load` succeeds on a core that is not running with at most 256 bytes, and then replaces memory alone. -/
theorem load_eq_ok {bytes : List Byte} {s t : State} :
    load bytes s = .ok t ↔
      s.status ≠ .running ∧ bytes.length ≤ memSize ∧ t = { s with mem := Memory.copyFrom 0 bytes s.mem } := by
  unfold load
  by_cases hr : s.status = .running
  · simp [hr]
  · by_cases hl : memSize < bytes.length
    · simp [hr, hl]
    · simp [hr, hl, Nat.le_of_not_lt hl, eq_comm]

/-- R118: `run()` begins on a core that is not running, and then sets Running alone. -/
theorem startRun_eq_ok {s t : State} : startRun s = .ok t ↔ s.status ≠ .running ∧ t = resume s := by
  unfold startRun
  by_cases hr : s.status = .running
  · simp [hr]
  · simp [hr, eq_comm]

/-- R101: a step ends in Faulted(e) only by the fault entry from the state it began in; an instruction that completes
leaves the core Running or Halted. -/
theorem step_eq_takeFault {s t : State} {e : ErrorRecord} (h : step s = .next t) (ht : t.status = .faulted e) :
    t = takeFault e s := by
  obtain ⟨hrun, hstep⟩ := step_cases h
  rcases hstep with ⟨e', _, rfl⟩ | ⟨_, e', _, _, rfl⟩ | ⟨i, _, hdone⟩
  · rw [Status.faulted.inj ht]
  · rw [Status.faulted.inj ht]
  · have hnot : t.status ≠ .faulted e := by
      rcases hdone.status with hs | ⟨_, hs⟩ <;> simp [hs, hrun]
    exact absurd ht hnot

/-- Settles O49: each of R23's sentences is the PC field of what construction, `load`, the fault entry or the beginning
of `run()` returns. -/
theorem pcResetAndKept : Obligations.PcResetAndKept := by
  unfold Obligations.PcResetAndKept
  refine ⟨fun _ => rfl, fun bytes s t hload => ?load, fun s t e hstep ht => ?fault, fun s t hrun => ?run⟩
  case load =>
    obtain ⟨_, _, rfl⟩ := load_eq_ok.1 hload
    rfl
  case fault => rw [step_eq_takeFault hstep ht, takeFault_pc]
  case run =>
    obtain ⟨_, rfl⟩ := startRun_eq_ok.1 hrun
    exact resume_pc s

end Sys2Proof.Machine
end

section
/-! Decoding a list of bytes (R48, R49, R50): what was decoded is the encoding at the head of the list, and its first
byte alone fixed the row of the opcode map, and with it the length. -/

namespace Sys2Proof

theorem listByteAt_eq_ok {bytes : List Byte} {k : Nat} {b : Byte} :
    listByteAt bytes k = .ok b ↔ bytes[k]? = some b := by
  unfold listByteAt
  cases bytes[k]? <;> simp

theorem decode_eq_ok {jau : Bool} {bytes rest : List Byte} {i : Instr} :
    decode jau bytes = .ok (i, rest) ↔
      decodeWith jau .unknownOpcode (listByteAt bytes) = .ok i ∧ bytes.drop i.length = rest := by
  unfold decode
  cases decodeWith jau .unknownOpcode (listByteAt bytes) with
  | ok j =>
    simp only [Except.ok.injEq, Prod.mk.injEq]
    exact and_congr_right fun hij => by rw [hij]
  | error e => simp

/-- The encoding of an instruction a row makes has the row's length. -/
theorem length_encode_assemble {row : OpcodeRow} (h : row ∈ opcodeTable) (b1 b2 : Byte) :
    (encode (assemble row.op b1 b2)).length = row.len := by
  rw [encode_assemble h]
  rcases opcodeTable_len h with hl | hl | hl <;> simp [hl]

/-- A list that gives the opcode of a row and the operand bytes the row asks for begins with the encoding of the
instruction they make. -/
theorem encode_assemble_prefix {row : OpcodeRow} (h : row ∈ opcodeTable) {bytes : List Byte} {b1 b2 : Byte}
    (h0 : bytes[0]? = some row.opcode) (h1 : 2 ≤ row.len → bytes[1]? = some b1)
    (h2 : row.len = 3 → bytes[2]? = some b2) : encode (assemble row.op b1 b2) <+: bytes := by
  rw [List.prefix_iff_getElem?]
  intro k hk
  have hlen : row.len = 1 ∨ row.len = 2 ∨ row.len = 3 := opcodeTable_len h
  have hlt : k < row.len := length_encode_assemble h b1 b2 ▸ hk
  rcases k with _ | _ | _ | k
  · simpa [encode_assemble h] using h0
  · have hl : 2 ≤ row.len := hlt
    simpa [encode_assemble h, hl] using h1 hl
  · have hl : row.len = 3 := by omega
    simpa [encode_assemble h, hl] using h2 hl
  · omega

/-- A list that decodes is the encoding of what it decodes to, then the bytes after it. -/
theorem eq_encode_append_of_decode {jau : Bool} {bytes rest : List Byte} {i : Instr}
    (h : decode jau bytes = .ok (i, rest)) : bytes = encode i ++ rest := by
  obtain ⟨hi, rfl⟩ := decode_eq_ok.1 h
  obtain ⟨ir, row, b1, b2, h0, hrow, rfl, h1, h2⟩ := decodeWith_ok hi
  obtain ⟨hmem, rfl, _⟩ := decoder_row hrow
  have hprefix : encode (assemble row.op b1 b2) <+: bytes :=
    encode_assemble_prefix hmem (listByteAt_eq_ok.1 h0) (fun hl => listByteAt_eq_ok.1 (h1 hl))
      (fun hl => listByteAt_eq_ok.1 (h2 hl))
  rw [length_eq_encode]
  exact (List.prefix_iff_eq_append.1 hprefix).symm

/-- The first byte of a list that decodes is the opcode of the instruction, and the row the decoder unit gives it says
how many operand bytes follow. -/
theorem operands_of_decode {jau : Bool} {op : Byte} {xs rest : List Byte} {i : Instr}
    (h : decode jau (op :: xs) = .ok (i, rest)) :
    ∃ row operands, decoder jau op = some row ∧ encode i = op :: operands ∧ 1 + operands.length = row.len ∧
      xs = operands ++ rest := by
  have hbytes : op :: xs = encode i ++ rest := eq_encode_append_of_decode h
  obtain ⟨ir, row, b1, b2, h0, hrow, rfl, _, _⟩ := decodeWith_ok (decode_eq_ok.1 h).1
  obtain rfl : op = ir := by simpa [listByteAt_eq_ok] using h0
  obtain ⟨hmem, hop, _⟩ := decoder_row hrow
  have henc := encode_assemble hmem b1 b2
  have hlen := length_encode_assemble hmem b1 b2
  rw [hop] at henc
  rw [henc] at hlen hbytes
  exact ⟨row, _, hrow, henc, (Nat.add_comm 1 _).trans hlen, List.tail_eq_of_cons_eq hbytes⟩

/-- Settles O3: both instructions have the one row the decoder unit gives their common first byte. -/
theorem lengthFixedByOpcode : Obligations.LengthFixedByOpcode := by
  unfold Obligations.LengthFixedByOpcode
  intro jau op xs ys xs' ys' i j hi hj
  obtain ⟨row, operandsI, hrow, hencI, hlenI, hxs⟩ := operands_of_decode hi
  obtain ⟨row', operandsJ, hrow', hencJ, hlenJ, hys⟩ := operands_of_decode hj
  obtain rfl : row = row' := Option.some.inj (hrow.symm.trans hrow')
  obtain ⟨hmem, hop, _⟩ := decoder_row hrow
  exact ⟨row, hmem, hop, opcodeTable_len hmem, operandsI, operandsJ, hencI, hencJ, hlenI, hlenJ, hxs, hys⟩

/-- Settles O1: the worked example's four byte strings and four instructions, evaluated in both directions. -/
theorem workedExampleBytes : Obligations.WorkedExampleBytes := by
  unfold Obligations.WorkedExampleBytes
  exact ⟨⟨by decide, rfl⟩, ⟨by decide, rfl⟩, ⟨by decide, rfl⟩, by decide, rfl⟩

end Sys2Proof
end

section
/-! An instruction that writes one register and lets the control_flow_unit write PC: its frame, and the sequential PC. -/

namespace Sys2Proof.Machine

/-- The sequential PC of the control_flow_unit is R9's `adv`. -/
theorem controlFlow_seq_pc (n : Nat) (s : State) : (controlFlow (.seq n) s).pc = pcAfter s n :=
  nextSeqPc_eq s n

/-- A write of one register, then of PC, changes nothing else. -/
theorem onlyRegsAndPc_controlFlow_setReg (tr : Transfer) (s : State) (r : Reg) (v : Byte) :
    OnlyRegsAndPc [r] s (controlFlow tr (s.setReg r v)) := by
  have hregs : SameRegsExcept [r] s (controlFlow tr (s.setReg r v)) := fun q hq => by
    rw [controlFlow_reg, State.reg_setReg, if_neg (by simpa using hq)]
  exact ⟨hregs, by simp, by simp, by simp, fun _ => by simp, by simp⟩

/-- Settles O16: LDI's next state is the register written with the immediate byte itself, then `adv(3)`. -/
theorem ldiLoadsImmediateUnchanged : Obligations.LdiLoadsImmediateUnchanged := by
  unfold Obligations.LdiLoadsImmediateUnchanged
  intro s r v
  refine ⟨_, exec_ldi r v s, ?reg, ?pc, onlyRegsAndPc_controlFlow_setReg (.seq 3) s r v⟩
  case reg => rw [controlFlow_reg, State.reg_setReg_self]
  case pc => exact controlFlow_seq_pc 3 (s.setReg r v)

end Sys2Proof.Machine
end

section
/-! The opcode byte at PC and UnknownInstruction (R67): the fetch raises it where the decoder unit has no row for that
byte, and nothing else in a step raises it. -/

namespace Sys2Proof

/-- Decoding over a source whose first byte has no row gives the error of that byte, and reads no other. -/
theorem decodeWith_of_none {ε : Type} {jau : Bool} {unknown : Byte → ε} {byteAt : Nat → Except ε Byte} {ir : Byte}
    (h0 : byteAt 0 = .ok ir) (hnone : decoder jau ir = none) : decodeWith jau unknown byteAt = .error (unknown ir) := by
  simp only [decodeWith, h0, Machine.ok_bind, hnone]

end Sys2Proof

namespace Sys2Proof.Machine

/-- Past the PC check of R66, a fetch is a decoding over the bytes at PC. -/
theorem fetchInstr_of_pc_le {s : State} (hpc : s.pc ≤ 255) :
    fetchInstr s = decodeWith s.params.jumpsAsUnknown (fun op => .unknownInstruction op s.pc) (fetchByte s) :=
  if_neg (Nat.not_lt.2 hpc)

/-- The opcode byte is the byte of memory at PC. -/
theorem fetchByte_zero_of_codeAt {s : State} {ir : Byte} (hcode : CodeAt s [ir]) : fetchByte s 0 = .ok ir := by
  obtain ⟨hpc, hbyte⟩ := codeAt_one.1 hcode
  rcases fetchByte_cases s 0 with ⟨hok, _⟩ | ⟨_, hgt, _⟩
  · rw [hok, Nat.add_zero, hbyte]
  · omega

/-- R67, the fetch: an opcode byte with no row raises UnknownInstruction at its own PC. -/
theorem fetchInstr_of_decoder_none {s : State} {ir : Byte} (hcode : CodeAt s [ir])
    (hnone : decoder s.params.jumpsAsUnknown ir = none) : fetchInstr s = .error (.unknownInstruction ir s.pc) := by
  rw [fetchInstr_of_pc_le hcode.1]
  exact decodeWith_of_none (fetchByte_zero_of_codeAt hcode) hnone

/-- The error of its fetch is how a running core's step ends. -/
theorem step_of_fetchInstr_error {s : State} {e : ErrorRecord} (hrun : s.status = .running)
    (hfetch : fetchInstr s = .error e) : step s = .next (takeFault e s) := by
  rw [step_of_running hrun, hfetch]

/-- An instruction of a running core that completed left it Running or Halted. -/
theorem Completes.status_ne_faulted {s t : State} {i : Instr} (h : Completes s i t) (hrun : s.status = .running)
    (e : ErrorRecord) : t.status ≠ .faulted e := by
  rcases h.status with hs | ⟨_, hs⟩ <;> simp [hs, hrun]

/-- The error of a step that faulted is the error of its fetch, or one of its instruction's execution. -/
theorem step_fault_source {s t : State} {e : ErrorRecord} (h : step s = .next t) (ht : t.status = .faulted e) :
    fetchInstr s = .error e ∨ ∃ i, fetchInstr s = .ok i ∧ ExecRaises s i e := by
  obtain ⟨hrun, hstep⟩ := step_cases h
  rcases hstep with ⟨e', hfetch, rfl⟩ | ⟨i, e', hfetch, hraise, rfl⟩ | ⟨i, _, hdone⟩
  · obtain rfl : e' = e := Status.faulted.inj ht
    exact .inl hfetch
  · obtain rfl : e' = e := Status.faulted.inj ht
    exact .inr ⟨i, hfetch, hraise⟩
  · exact absurd ht (hdone.status_ne_faulted hrun e)

/-- Execution raises no UnknownInstruction: only the decoder does (R67). -/
theorem not_execRaises_unknownInstruction {s : State} {i : Instr} {op : Byte} {p : Nat} :
    ¬ ExecRaises s i (.unknownInstruction op p) := nofun

/-- R67, the converse: a step that raised UnknownInstruction had at PC an opcode byte with no row. -/
theorem decoder_eq_none_of_step_unknownInstruction {s t : State} {op : Byte} {p : Nat} (h : step s = .next t)
    (ht : t.status = .faulted (.unknownInstruction op p)) :
    decoder s.params.jumpsAsUnknown (s.readByte (BitVec.ofNat 8 s.pc)) = none := by
  rcases step_fault_source h ht with hfetch | ⟨_, _, hraise⟩
  · rcases fetchInstr_error hfetch with ⟨_, he⟩ | ⟨_, hnone, _⟩ | ⟨_, _, he, _⟩
    · cases he
    · exact hnone
    · cases he
  · exact absurd hraise not_execRaises_unknownInstruction

/-- Settles O7: the fetch raises UnknownInstruction where the opcode byte has no row, and a step that raised it had no
row. -/
theorem unknownOpcodeRaises : Obligations.UnknownOpcodeRaises := by
  unfold Obligations.UnknownOpcodeRaises
  intro s ir hrun hcode
  refine ⟨fun hnone => ?raises, fun row hrow t op p hstep ht => ?onlyThere⟩
  case raises => exact step_of_fetchInstr_error hrun (fetchInstr_of_decoder_none hcode hnone)
  case onlyThere =>
    have hnone := decoder_eq_none_of_step_unknownInstruction hstep ht
    rw [(codeAt_one.1 hcode).2, hrow] at hnone
    cases hnone

end Sys2Proof.Machine
end

section
/-! Fetch and step on bytes in place at PC: the bytes of an instruction, an operand byte past memory (R68), PC past
memory (R66), the sequential PC under each policy; and LDI's step from them (R76). -/

namespace Sys2Proof.Machine

/-- A step at an instruction is the instruction's execution. -/
theorem step_of_fetchInstr_ok {s : State} {i : Instr} (hrun : s.status = .running) (hfetch : fetchInstr s = .ok i) :
    step s = exec i s := by
  rw [step_of_running hrun, hfetch]

/-- Each byte of the code at PC is read by the fetch, under either policy. -/
theorem fetchByte_of_codeAt {s : State} {bs : List Byte} (hcode : CodeAt s bs) (k : Fin bs.length) :
    fetchByte s k = .ok bs[k] := by
  obtain ⟨hbound, hbyte⟩ := hcode.2 k
  rcases fetchByte_cases s k with ⟨hok, _⟩ | ⟨_, hgt, hfault⟩
  · rw [hok, hbyte]
  · exact absurd (hbound hfault) (Nat.not_le.2 hgt)

/-- R66: PC past memory is the fetch's first error. -/
theorem fetchInstr_of_lt_pc {s : State} (hpc : 255 < s.pc) : fetchInstr s = .error (.memoryBoundsError s.pc s.pc) :=
  if_pos hpc

/-- A fetch that gives an instruction read within memory, under `Fault`, every byte the row of its opcode asks for. -/
theorem pc_add_len_le_of_fetchInstr_ok {s : State} {i : Instr} {ir : Byte} {row : OpcodeRow}
    (hfault : s.params.boundsPolicy = .fault) (hcode : CodeAt s [ir])
    (hrow : decoder s.params.jumpsAsUnknown ir = some row) (hfetch : fetchInstr s = .ok i) : s.pc + row.len ≤ 256 := by
  rw [fetchInstr_of_pc_le hcode.1] at hfetch
  obtain ⟨ir', row', _, _, h0, hrow', _, h1, h2⟩ := decodeWith_ok hfetch
  obtain rfl : ir = ir' := Except.ok.inj ((fetchByte_zero_of_codeAt hcode).symm.trans h0)
  obtain rfl : row = row' := Option.some.inj (hrow.symm.trans hrow')
  have hpc : s.pc ≤ 255 := hcode.1
  rcases opcodeTable_len (decoder_row hrow).1 with hlen | hlen | hlen
  · omega
  · have hlast : s.pc + 1 ≤ 255 := (fetchByte_eq_ok (h1 (by omega))).2 hfault
    omega
  · have hlast : s.pc + 2 ≤ 255 := (fetchByte_eq_ok (h2 hlen)).2 hfault
    omega

/-- R68: under `Fault`, an instruction whose last byte would lie past memory is an error of its fetch, at address 256. -/
theorem fetchInstr_of_operand_past {s : State} {ir : Byte} {row : OpcodeRow}
    (hfault : s.params.boundsPolicy = .fault) (hcode : CodeAt s [ir])
    (hrow : decoder s.params.jumpsAsUnknown ir = some row) (hpast : 256 < s.pc + row.len) :
    fetchInstr s = .error (.memoryBoundsError 256 s.pc) := by
  obtain ⟨hpc, hbyte⟩ := codeAt_one.1 hcode
  cases hfetch : fetchInstr s with
  | ok i => exact absurd (pc_add_len_le_of_fetchInstr_ok hfault hcode hrow hfetch) (Nat.not_le.2 hpast)
  | error e =>
    rcases fetchInstr_error hfetch with ⟨hgt, _⟩ | ⟨_, hnone, _⟩ | ⟨_, _, rfl, _⟩
    · exact absurd hpc (Nat.not_le.2 hgt)
    · rw [hbyte, hrow] at hnone
      cases hnone
    · rfl

/-- PC after a sequential advance, under `Fault`. -/
theorem pcAfter_of_fault {s : State} (hfault : s.params.boundsPolicy = .fault) (n : Nat) : pcAfter s n = s.pc + n :=
  if_neg (by simp [hfault])

/-- PC after a sequential advance, under `Wrap`. -/
theorem pcAfter_of_wrap {s : State} (hwrap : s.params.boundsPolicy = .wrap) (n : Nat) :
    pcAfter s n = (s.pc + n) % 256 :=
  if_pos hwrap

/-- The decoder unit's row for LDI (R53), whatever `JUMPS_AS_UNKNOWN` is. -/
theorem decoder_ldi (jau : Bool) : decoder jau 0x82 = some ⟨0x82, .ldi, .ri, 3, none, false, false⟩ := by
  cases jau <;> rfl

/-- A running core's step at the three bytes of an LDI executes it, for every register operand byte. -/
theorem step_of_codeAt_ldi {s : State} {b v : Byte} (hrun : s.status = .running) (hcode : CodeAt s [0x82, b, v]) :
    step s = exec (.ldi b v) s := by
  have hfetch : fetchInstr s = .ok (.ldi b v) := by
    rw [fetchInstr_of_pc_le hcode.1]
    exact decodeWith_of_row (fetchByte_of_codeAt hcode 0) (decoder_ldi _) (fun _ => fetchByte_of_codeAt hcode 1)
      (fun _ => fetchByte_of_codeAt hcode 2)
  exact step_of_fetchInstr_ok hrun hfetch

/-- Settles O17: the step at three bytes in memory is LDI's execution, so its result is O16's and its error the operand
check's; PC 256 after an LDI at 253, and the bytes missing at 254 and 255, are errors of the fetch. -/
theorem ldiStep : Obligations.LdiStep := by
  unfold Obligations.LdiStep
  intro s hrun
  refine ⟨fun r v hcode => ?loads, fun b v hcode hb => ?invalid, fun hfault hcode hpc => ?past⟩
  case loads =>
    obtain ⟨t, hexec, hreg, hpc, hframe⟩ := ldiLoadsImmediateUnchanged s r v
    refine ⟨t, (step_of_codeAt_ldi hrun hcode).trans hexec, hreg, hpc, hframe, ?sp, fun hfault h253 => ?fault,
      fun hwrap h253 => ?wrap⟩
    case sp =>
      rintro rfl
      exact hreg
    case fault =>
      obtain ⟨_, _, hstatus, _⟩ := hframe
      have hpc256 : t.pc = 256 := by rw [hpc, pcAfter_of_fault hfault, h253]
      have hfetch : fetchInstr t = .error (.memoryBoundsError 256 256) := by
        rw [fetchInstr_of_lt_pc (by omega), hpc256]
      exact ⟨hpc256, step_of_fetchInstr_error (hstatus.trans hrun) hfetch⟩
    case wrap => rw [hpc, pcAfter_of_wrap hwrap, h253]
  case invalid => exact (step_of_codeAt_ldi hrun hcode).trans (commit_invalid hb _)
  case past =>
    have hpast : 256 < s.pc + 3 := by omega
    exact step_of_fetchInstr_error hrun (fetchInstr_of_operand_past hfault hcode (decoder_ldi _) hpast)

end Sys2Proof.Machine
end

section
/-! UnsupportedAluOperation (R84): the map selects three functions of the alu, the alu has no other, and no part of a
step raises the error. -/

namespace Sys2Proof

/-- R60: the alu selects that stand in the opcode map. -/
theorem aluOp_of_mem_opcodeTable : ∀ row ∈ opcodeTable, ∀ sel : BitVec 2, row.aluOp = some sel →
    sel = aluAdd ∨ sel = aluMul ∨ sel = aluCmp := by
  decide

end Sys2Proof

namespace Sys2Proof.Machine

/-- R79, the `other` arm: no value, and the error names the select. -/
theorem alu_other {sel : BitVec 2} (hadd : sel ≠ aluAdd) (hmul : sel ≠ aluMul) (hcmp : sel ≠ aluCmp) (a b : Byte)
    (p : Nat) : alu sel a b p = .error (.unsupportedAluOperation sel p) := by
  rw [alu, if_neg hadd, if_neg hmul, if_neg hcmp]

/-- A fetch raises MemoryBoundsError or UnknownInstruction only. -/
theorem fetchInstr_ne_unsupportedAluOperation (s : State) (op : BitVec 2) (p : Nat) :
    fetchInstr s ≠ .error (.unsupportedAluOperation op p) := by
  intro h
  rcases fetchInstr_error h with ⟨_, he⟩ | ⟨_, _, he⟩ | ⟨_, _, he, _⟩ <;> cases he

/-- Execution raises no UnsupportedAluOperation: each ALU instruction hands the alu its own select. -/
theorem not_execRaises_unsupportedAluOperation {s : State} {i : Instr} {op : BitVec 2} {p : Nat} :
    ¬ ExecRaises s i (.unsupportedAluOperation op p) := nofun

/-- Settles O13: the decoder's rows are rows of the map; a step's error comes from its fetch or its instruction's
execution, and neither raises this one; and any other select falls to the alu's last arm. -/
theorem unsupportedAluUnreachable : Obligations.UnsupportedAluUnreachable := by
  unfold Obligations.UnsupportedAluUnreachable
  refine ⟨fun jau ir row sel hrow hsel => ?selects, fun s t op p hstep ht => ?unreachable,
    fun sel a b p hadd hmul hcmp => ?other⟩
  case selects => exact aluOp_of_mem_opcodeTable row (decoder_row hrow).1 sel hsel
  case unreachable =>
    rcases step_fault_source hstep ht with hfetch | ⟨_, _, hraise⟩
    · exact fetchInstr_ne_unsupportedAluOperation s op p hfetch
    · exact not_execRaises_unsupportedAluOperation hraise
  case other => exact alu_other hadd hmul hcmp a b p

end Sys2Proof.Machine
end

section
/-! Decode and encode agree (R49, R53): the decoder unit gives every row of the map for that row's opcode, and every
instruction is what one row assembles. A fetch finds the instruction whose bytes lie at PC (R72). -/

namespace Sys2Proof

/-- The decoder unit gives each row of the map for its opcode byte, but the jumps where they are removed. -/
theorem decoder_of_mem_opcodeTable : ∀ row ∈ opcodeTable, ∀ jau : Bool, (jau && row.op.isJump) = false →
    decoder jau row.opcode = some row := by
  decide

/-- Each mnemonic has a row of the map. -/
theorem exists_row_of_mnemonic (m : Mnemonic) : ∃ row ∈ opcodeTable, row.op = m := by
  cases m <;> decide

/-- An instruction is made of its mnemonic and its operand bytes. -/
theorem exists_assemble_eq (i : Instr) : ∃ b1 b2, assemble i.mnemonic b1 b2 = i := by
  cases i with
  | hlt | ret => exact ⟨0, 0, rfl⟩
  | prn r | push r | pop r | call r | jmp r | jeq r | jne r => exact ⟨r, 0, rfl⟩
  | ldi r v => exact ⟨r, v, rfl⟩
  | mul a b | add a b | cmp a b => exact ⟨a, b, rfl⟩

/-- R97: with `JUMPS_AS_UNKNOWN` the removed instructions are the three jumps. -/
theorem isJump_eq_false {m : Mnemonic} (h : m ≠ .jmp ∧ m ≠ .jeq ∧ m ≠ .jne) : m.isJump = false := by
  obtain ⟨hjmp, hjeq, hjne⟩ := h
  cases m with
  | jmp => exact absurd rfl hjmp
  | jeq => exact absurd rfl hjeq
  | jne => exact absurd rfl hjne
  | _ => rfl

/-- Decoding a list that begins with the bytes a row makes gives the instruction they make. -/
theorem decodeWith_encode_assemble {jau : Bool} {row : OpcodeRow} (hmem : row ∈ opcodeTable)
    (hrow : decoder jau row.opcode = some row) (b1 b2 : Byte) (rest : List Byte) :
    decodeWith jau .unknownOpcode (listByteAt (encode (assemble row.op b1 b2) ++ rest)) =
      .ok (assemble row.op b1 b2) := by
  rw [encode_assemble hmem]
  refine decodeWith_of_row (listByteAt_eq_ok.2 rfl) hrow (fun hl => ?_) (fun hl => ?_) <;>
    simp [listByteAt_eq_ok, hl]

/-- Settles O4: the instruction is what its mnemonic's row assembles, and the decoder unit gives that row for its
opcode byte. -/
theorem decodeOfEncode : Obligations.DecodeOfEncode := by
  unfold Obligations.DecodeOfEncode
  intro jau i rest hjumps
  obtain ⟨row, hmem, hop⟩ := exists_row_of_mnemonic i.mnemonic
  obtain ⟨b1, b2, hi⟩ := exists_assemble_eq i
  have hkept : (jau && row.op.isJump) = false := by
    cases jau with
    | false => rfl
    | true => rw [hop, isJump_eq_false (hjumps rfl), Bool.and_false]
  have hdec := decodeWith_encode_assemble hmem (decoder_of_mem_opcodeTable row hmem jau hkept) b1 b2 rest
  rw [hop, hi] at hdec
  exact decode_eq_ok.2 ⟨hdec, by rw [length_eq_encode, List.drop_left]⟩

/-- Settles O5: the encoding stands at the head of a list that decodes, before the bytes left over. -/
theorem decodedBytesAreTheEncoding : Obligations.DecodedBytesAreTheEncoding := by
  unfold Obligations.DecodedBytesAreTheEncoding
  exact fun _ _ _ _ h => eq_encode_append_of_decode h

/-- Settles O2: the decoder unit evaluated at the thirteen opcodes. -/
theorem decoderGivesOpcodeMap : Obligations.DecoderGivesOpcodeMap := by
  unfold Obligations.DecoderGivesOpcodeMap
  decide

end Sys2Proof

namespace Sys2Proof.Machine

/-- What decodes from the bytes at PC is what the fetch gives, under either policy. -/
theorem fetchInstr_of_decode {s : State} {bytes rest : List Byte} {i : Instr} (hcode : CodeAt s bytes)
    (hdec : decode s.params.jumpsAsUnknown bytes = .ok (i, rest)) : fetchInstr s = .ok i := by
  have hbyte : ∀ {k b}, listByteAt bytes k = .ok b → fetchByte s k = .ok b := fun {k b} h => by
    obtain ⟨hk, rfl⟩ := List.getElem?_eq_some_iff.1 (listByteAt_eq_ok.1 h)
    exact fetchByte_of_codeAt hcode ⟨k, hk⟩
  obtain ⟨ir, row, b1, b2, h0, hrow, rfl, h1, h2⟩ := decodeWith_ok (decode_eq_ok.1 hdec).1
  rw [fetchInstr_of_pc_le hcode.1]
  exact decodeWith_of_row (hbyte h0) hrow (fun hl => hbyte (h1 hl)) (fun hl => hbyte (h2 hl))

/-- An instruction in place at PC is executed, unless it is a removed jump. -/
theorem step_of_codeAt_encode {s : State} {i : Instr} (hrun : s.status = .running) (hcode : CodeAt s (encode i))
    (hjumps : s.params.jumpsAsUnknown = true → i.mnemonic ≠ .jmp ∧ i.mnemonic ≠ .jeq ∧ i.mnemonic ≠ .jne) :
    step s = exec i s := by
  have hdec := decodeOfEncode s.params.jumpsAsUnknown i [] hjumps
  rw [List.append_nil] at hdec
  exact step_of_fetchInstr_ok hrun (fetchInstr_of_decode hcode hdec)

/-- Settles O6: the fetch gives what the bytes at PC decode to. -/
theorem stepRunsDecodedInstruction : Obligations.StepRunsDecodedInstruction := by
  unfold Obligations.StepRunsDecodedInstruction
  exact fun _ _ _ hrun hcode hdec => step_of_fetchInstr_ok hrun (fetchInstr_of_decode hcode hdec)

end Sys2Proof.Machine
end

section
/-! What an instruction that completed did to each field but the registers: the frames of R18, R25, R30, R36, and PC as
R71, R75 and R90 give it. -/

namespace Sys2Proof.Machine

/-- FL is written by CMP alone (R25, R83). -/
theorem Completes.fl {s t : State} {i : Instr} (h : Completes s i t) :
    t.fl = s.fl ∨ ∃ a b : Reg, i = .cmp a.toByte b.toByte ∧ t.fl = compareFlags (s.reg a) (s.reg b) := by
  cases h with
  | cmp a b => exact .inr ⟨a, b, rfl, controlFlow_fl _ _⟩
  | _ => exact .inl (by simp)

/-- PC is kept by HLT, advanced by the instruction's length, or set to a byte by a control transfer. -/
theorem Completes.pc {s t : State} {i : Instr} (h : Completes s i t) :
    (i = .hlt ∧ t.pc = s.pc) ∨ t.pc = pcAfter s i.length ∨
      (i.mnemonic ∈ [Mnemonic.call, .ret, .jmp, .jeq, .jne] ∧ ∃ b : Byte, t.pc = b.toNat) := by
  cases h with
  | hlt => exact .inl ⟨rfl, rfl⟩
  | ldi | prn | mul | add | cmp | push | pop => exact .inr (.inl (controlFlow_seq_pc _ _))
  | call | ret | jmp => exact .inr (.inr ⟨by simp [Instr.mnemonic], _, rfl⟩)
  | jeq r =>
    rw [controlFlow_pc]
    cases s.flagE
    · exact .inr (.inl (nextSeqPc_eq s 2))
    · exact .inr (.inr ⟨by simp [Instr.mnemonic], _, rfl⟩)
  | jne r =>
    rw [controlFlow_pc]
    cases s.flagE
    · exact .inr (.inr ⟨by simp [Instr.mnemonic], _, rfl⟩)
    · exact .inr (.inl (nextSeqPc_eq s 2))

/-- The parameters are kept. -/
theorem Completes.params {s t : State} {i : Instr} (h : Completes s i t) : t.params = s.params := by
  cases h <;> simp

/-- The canonical form of memory is kept: the only writes are `MemWrite`s. -/
theorem Completes.mem_wf {s t : State} {i : Instr} (h : Completes s i t) (hwf : s.mem.wf = true) :
    t.mem.wf = true := by
  cases h with
  | push | call =>
    rw [controlFlow_mem]
    exact State.writeByte_wf (by simpa using hwf) _ _
  | _ => simpa using hwf

end Sys2Proof.Machine
end

section
/-! The invariant: construction establishes it, a step and the host's actions keep it, so every reachable state meets
it. -/

namespace Sys2Proof.Machine

/-- Under `Fault` the code at PC ends within memory (R68). -/
theorem pc_add_length_le_of_codeAt {s : State} {bs : List Byte} (hcode : CodeAt s bs) (hne : 0 < bs.length)
    (hfault : s.params.boundsPolicy = .fault) : s.pc + bs.length ≤ 256 := by
  have hlast : s.pc + (bs.length - 1) ≤ 255 := (hcode.2 ⟨bs.length - 1, by omega⟩).1 hfault
  omega

/-- R22 after a sequential advance: modulo 256 under `Wrap`, and under `Fault` at most the end of the instruction. -/
theorem pcAfter_length_inRange {s t : State} {i : Instr} (hfetch : fetchInstr s = .ok i)
    (hparams : t.params = s.params) (hpc : t.pc = pcAfter s i.length) : PcInRange t := by
  unfold PcInRange
  rw [hparams, hpc]
  cases hpol : s.params.boundsPolicy with
  | wrap =>
    rw [pcAfter_of_wrap hpol]
    omega
  | fault =>
    have hpos : 0 < (encode i).length := by cases i <;> simp [encode]
    have hend := pc_add_length_le_of_codeAt (fetchInstr_ok hfetch) hpos hpol
    rw [pcAfter_of_fault hpol, length_eq_encode]
    exact ⟨hend, nofun⟩

/-- R22: an instruction that completed leaves PC in range. -/
theorem Completes.pcInRange {s t : State} {i : Instr} (h : Completes s i t) (hfetch : fetchInstr s = .ok i)
    (hrange : PcInRange s) : PcInRange t := by
  rcases h.pc with ⟨_, hpc⟩ | hpc | ⟨_, b, hpc⟩
  · unfold PcInRange
    rwa [hpc, h.params]
  · exact pcAfter_length_inRange hfetch h.params hpc
  · have hb : b.toNat < 256 := b.isLt
    exact ⟨by omega, fun _ => by omega⟩

/-- R83: CMP leaves one flag set, and no other instruction writes FL. -/
theorem Completes.flagsLegal {s t : State} {i : Instr} (h : Completes s i t) (hfl : FlagsLegal s) : FlagsLegal t := by
  rcases h.fl with he | ⟨a, b, _, he⟩
  · unfold FlagsLegal
    rwa [he]
  · rw [compareFlags_eq] at he
    unfold FlagsLegal
    rw [he]
    split_ifs <;> decide

/-- R100: the error of a fetch is a legal record where PC is in range, since PC is past 255 only at 256 and only under
`Fault`. -/
theorem recordLegal_of_fetchInstr_error {s : State} {e : ErrorRecord} (hrange : PcInRange s)
    (h : fetchInstr s = .error e) : RecordLegal s e := by
  obtain ⟨hle, hwrap⟩ := hrange
  rcases fetchInstr_error h with ⟨hgt, rfl⟩ | ⟨_, _, rfl⟩ | ⟨_, hfault, rfl, _⟩
  · refine ⟨by omega, rfl, ?_⟩
    cases hpol : s.params.boundsPolicy with
    | fault => rfl
    | wrap => exact absurd (hwrap hpol) (Nat.not_le.2 hgt)
  · rfl
  · exact ⟨rfl, rfl, hfault⟩

/-- R100: an error of execution is a legal record where the instruction's bytes lie at PC; they bound the return address
of a CALL by 256. -/
theorem ExecRaises.recordLegal {s : State} {i : Instr} {e : ErrorRecord} (h : ExecRaises s i e)
    (hcode : CodeAt s (encode i)) : RecordLegal s e := by
  cases h with
  | invalidRegister b hb _ => exact ⟨hb, rfl⟩
  | returnAddress r hgt hfault =>
    have hend : s.pc + 2 ≤ 256 := pc_add_length_le_of_codeAt hcode Nat.zero_lt_two hfault
    exact ⟨by omega, rfl, hfault⟩
  | pushOverflow | callOverflow | popUnderflow | retUnderflow => exact ⟨rfl, rfl, ‹_›⟩

/-- The fault entry keeps the invariant where its record is legal (R101). -/
theorem Inv.takeFault {s : State} (h : Inv s) {e : ErrorRecord} (he : RecordLegal s e) : Inv (takeFault e s) :=
  ⟨h.mem, h.pc, h.fl, he⟩

/-- An instruction of a running core that completed keeps the invariant. -/
theorem Completes.inv {s t : State} {i : Instr} (h : Completes s i t) (hrun : s.status = .running)
    (hfetch : fetchInstr s = .ok i) (hinv : Inv s) : Inv t := by
  have hstatus : StatusLegal t := by
    unfold StatusLegal
    rcases h.status with hs | ⟨_, hs⟩ <;> simp [hs, hrun]
  exact ⟨h.mem_wf hinv.mem, h.pcInRange hfetch hinv.pc, h.flagsLegal hinv.fl, hstatus⟩

/-- Settles O44: a step takes a legal error of its fetch or of execution, or its instruction completes. -/
theorem stepKeepsInv : Obligations.StepKeepsInv := by
  unfold Obligations.StepKeepsInv
  intro s t hinv hstep
  obtain ⟨hrun, hcases⟩ := step_cases hstep
  rcases hcases with ⟨e, hfetch, rfl⟩ | ⟨i, e, hfetch, hraise, rfl⟩ | ⟨i, hfetch, hdone⟩
  · exact hinv.takeFault (recordLegal_of_fetchInstr_error hinv.pc hfetch)
  · exact hinv.takeFault (hraise.recordLegal (fetchInstr_ok hfetch))
  · exact hdone.inv hrun hfetch hinv

/-- Settles O43: memory lists no cell, PC and FL are 0, and the status is Stopped. -/
theorem constructedStateMeetsInv : Obligations.ConstructedStateMeetsInv := by
  unfold Obligations.ConstructedStateMeetsInv
  exact fun p => ⟨State.construct_wf p, ⟨Nat.zero_le _, fun _ => Nat.zero_le _⟩, .inl rfl, trivial⟩

/-- Settles O45: `load` writes below 256 only and keeps the rest; the beginning of `run()` sets Running alone. -/
theorem hostActionsKeepInv : Obligations.HostActionsKeepInv := by
  unfold Obligations.HostActionsKeepInv
  rintro s t hinv (⟨bytes, hload⟩ | hrun)
  · obtain ⟨_, hlen, rfl⟩ := load_eq_ok.1 hload
    exact ⟨Memory.wf_copyFrom hinv.mem bytes (by omega), hinv.pc, hinv.fl, hinv.status⟩
  · obtain ⟨_, rfl⟩ := startRun_eq_ok.1 hrun
    exact ⟨hinv.mem, hinv.pc, hinv.fl, trivial⟩

/-- Every reachable state meets the invariant. -/
theorem Reachable.inv {s : State} (h : Reachable s) : Inv s := by
  induction h with
  | construct p => exact constructedStateMeetsInv p
  | load bytes _ hload ih => exact hostActionsKeepInv _ _ ih (.inl ⟨bytes, hload⟩)
  | startRun _ hrun ih => exact hostActionsKeepInv _ _ ih (.inr hrun)
  | step _ hstep ih => exact stepKeepsInv _ _ ih hstep

end Sys2Proof.Machine
end

section
/-! Errors of a step: where the core has no step (R65), illegal opcodes (R56, R97), the fetch past memory (R66, R68),
InvalidRegister (R69), and that faults are precise (R101). -/

namespace Sys2Proof

/-- R53: the opcode bytes of the map. -/
theorem opcode_of_mem_opcodeTable : ∀ row ∈ opcodeTable,
    row.opcode ∈ ([0x01, 0x11, 0x45, 0x46, 0x47, 0x50, 0x54, 0x55, 0x56, 0x82, 0xA0, 0xA2, 0xA7] : List Byte) := by
  decide

/-- R97: the jumps have no row where `JUMPS_AS_UNKNOWN` removes them. -/
theorem decoder_jump_eq_none : ∀ ir ∈ ([0x54, 0x55, 0x56] : List Byte), decoder true ir = none := by
  decide

end Sys2Proof

namespace Sys2Proof.Machine

/-- Execution always has a next state: an error's or the instruction's. -/
theorem exec_eq_some_next (i : Instr) (s : State) : ∃ t, exec i s = .next t := by
  rcases exec_cases i s with ⟨e, _, h⟩ | ⟨t, _, h⟩
  · exact ⟨_, h⟩
  · exact ⟨t, h⟩

/-- R65: no step in any status but Running. -/
theorem step_of_ne_running {s : State} (h : s.status ≠ .running) : step s = .fault .notRunning := by
  unfold step
  cases hs : s.status with
  | running => exact absurd hs h
  | stopped | halted | faulted => rfl

/-- Settles O11: a fetch ends in an error or an instruction, and execution always has a next state. -/
theorem stepsExactlyWhileRunning : Obligations.StepsExactlyWhileRunning := by
  unfold Obligations.StepsExactlyWhileRunning
  refine fun s => ⟨fun hrun => ?_, step_of_ne_running⟩
  cases hfetch : fetchInstr s with
  | ok i =>
    rw [step_of_fetchInstr_ok hrun hfetch]
    exact exec_eq_some_next i s
  | error e => exact ⟨_, step_of_fetchInstr_error hrun hfetch⟩

/-- Settles O12: the step is the fault entry. -/
theorem faultsArePrecise : Obligations.FaultsArePrecise := by
  unfold Obligations.FaultsArePrecise
  intro s t e hstep ht
  rw [step_eq_takeFault hstep ht]
  exact ⟨rfl, rfl, rfl, rfl, rfl, rfl⟩

/-- Settles O8: such an opcode byte has no row. -/
theorem illegalOpcodesRaise : Obligations.IllegalOpcodesRaise := by
  unfold Obligations.IllegalOpcodesRaise
  intro s ir hrun hcode hillegal
  have hnone : decoder s.params.jumpsAsUnknown ir = none := by
    rcases hillegal with hother | ⟨hjumps, hmem⟩
    · refine Option.eq_none_iff_forall_ne_some.2 fun row hrow => hother ?_
      obtain ⟨hmem, rfl, _⟩ := decoder_row hrow
      exact opcode_of_mem_opcodeTable row hmem
    · rw [hjumps]
      exact decoder_jump_eq_none ir hmem
  exact step_of_fetchInstr_error hrun (fetchInstr_of_decoder_none hcode hnone)

/-- Settles O9: the PC check is the first of the fetch. -/
theorem fetchPastMemoryRaises : Obligations.FetchPastMemoryRaises := by
  unfold Obligations.FetchPastMemoryRaises
  exact fun _ hrun hpc => step_of_fetchInstr_error hrun (fetchInstr_of_lt_pc hpc)

/-- Settles O10: the error is the fetch's, before any register check of execution. -/
theorem operandPastMemoryRaises : Obligations.OperandPastMemoryRaises := by
  unfold Obligations.OperandPastMemoryRaises
  exact fun _ _ _ hrun hfault hcode hrow hpast =>
    step_of_fetchInstr_error hrun (fetchInstr_of_operand_past hfault hcode hrow hpast)

/-- An ALU instruction raises InvalidRegister for regA. -/
theorem commit_aluStep_invalid_left {s : State} {a : Byte} (ha : 8 ≤ a.toNat) (op : BitVec 2) (b : Byte) :
    commit s (aluStep op a b s) = .next (takeFault (.invalidRegister a s.pc) s) := by
  rw [aluStep_invalid_left ha]; rfl

/-- An ALU instruction raises InvalidRegister for regB where regA names a register. -/
theorem commit_aluStep_invalid_right {s : State} {a b : Byte} (ha : a.toNat < 8) (hb : 8 ≤ b.toNat) (op : BitVec 2) :
    commit s (aluStep op a b s) = .next (takeFault (.invalidRegister b s.pc) s) := by
  obtain ⟨r, rfl⟩ := Reg.exists_toByte ha
  rw [aluStep_invalid_right hb]; rfl

/-- Settles O14: the register operand check is the first thing each meaning does, regA's before regB's. -/
theorem invalidRegisterRaises : Obligations.InvalidRegisterRaises := by
  unfold Obligations.InvalidRegisterRaises
  intro s a b
  simp only [List.forall_mem_cons, List.not_mem_nil, false_implies, implies_true, and_true]
  refine ⟨fun ha => ?regA, fun ha hb => ?regB⟩
  case regA =>
    have one := commit_invalid (s := s) ha
    have alu := commit_aluStep_invalid_left (s := s) ha
    exact ⟨one _, one _, alu _ b, alu _ b, alu _ b, one _, one _, one _, one _, one _, one _⟩
  case regB =>
    have alu := commit_aluStep_invalid_right (s := s) ha hb
    exact ⟨alu _, alu _, alu _⟩

end Sys2Proof.Machine
end

section
/-! What each instruction does where it does not fault: its next state is the one `Completes` names, and the fields of
that state. -/

namespace Sys2Proof.Machine

/-- Execution gives the next state `Completes` names: its conditions are those under which nothing raises. -/
theorem Completes.exec_eq {s t : State} {i : Instr} (h : Completes s i t) : exec i s = .next t := by
  cases h with
  | hlt => exact exec_hlt s
  | ldi r v => exact exec_ldi r v s
  | prn r => exact exec_prn r s
  | mul a b => exact exec_mul a b s
  | add a b => exact exec_add a b s
  | cmp a b => exact exec_cmp a b s
  | push r h => rw [exec_push, decSp_ok h]; rfl
  | pop r h => rw [exec_pop, incSp_ok h]; rfl
  | call r h hr =>
    have hret : chk s (s.pc + 2) = .ok (BitVec.ofNat 8 (s.pc + 2)) := hr.elim chk_of_le (chk_of_wrap · _)
    rw [exec_call, hret, ok_bind, decSp_ok h]; rfl
  | ret h => rw [exec_ret, incSp_ok h]; rfl
  | jmp r => exact exec_jmp r s
  | jeq r => exact exec_jeq r s
  | jne r => exact exec_jne r s

/-- A control transfer changes nothing but PC. -/
theorem onlyRegsAndPc_controlFlow (tr : Transfer) (s : State) : OnlyRegsAndPc [] s (controlFlow tr s) :=
  ⟨fun _ _ => by simp, by simp, by simp, by simp, fun _ => by simp, by simp⟩

/-- Settles O15: the status write is all that HLT's execution does. -/
theorem hltHalts : Obligations.HltHalts := by
  unfold Obligations.HltHalts
  exact exec_hlt

/-- Settles O18: PRN's next state is the byte appended to `out`, then `adv(2)`. -/
theorem prnAppendsRegister : Obligations.PrnAppendsRegister := by
  unfold Obligations.PrnAppendsRegister
  intro s r
  exact ⟨_, exec_prn r s, by simp, controlFlow_seq_pc 2 (s.emit (s.reg r)), fun _ _ => by simp, by simp, by simp,
    fun _ => by simp, by simp⟩

/-- Settles O19: the byte written is the bit vectors' product. -/
theorem mulWrapsModulo256 : Obligations.MulWrapsModulo256 := by
  unfold Obligations.MulWrapsModulo256
  intro s ra rb
  refine ⟨_, exec_mul ra rb s, ?reg, ?pc, onlyRegsAndPc_controlFlow_setReg _ s ra _⟩
  case reg => rw [controlFlow_reg, State.reg_setReg_self, BitVec.toNat_mul]
  case pc => exact controlFlow_seq_pc 3 (s.setReg ra (s.reg ra * s.reg rb))

/-- Settles O20: the byte written is the bit vectors' sum. -/
theorem addWrapsModulo256 : Obligations.AddWrapsModulo256 := by
  unfold Obligations.AddWrapsModulo256
  intro s ra rb
  refine ⟨_, exec_add ra rb s, ?reg, ?pc, onlyRegsAndPc_controlFlow_setReg _ s ra _⟩
  case reg => rw [controlFlow_reg, State.reg_setReg_self, BitVec.toNat_add]
  case pc => exact controlFlow_seq_pc 3 (s.setReg ra (s.reg ra + s.reg rb))

/-- Settles O21: the written bytes are the bit vectors' sum and product, whose signed values are balanced residues. -/
theorem addMulAgreeWithSigned : Obligations.AddMulAgreeWithSigned := by
  unfold Obligations.AddMulAgreeWithSigned
  intro s t u ra rb hadd hmul
  obtain rfl := Host.Outcome.next.inj ((exec_add ra rb s).symm.trans hadd)
  obtain rfl := Host.Outcome.next.inj ((exec_mul ra rb s).symm.trans hmul)
  simp only [controlFlow_reg, State.reg_setReg_self]
  exact ⟨BitVec.toInt_add _ _, BitVec.toInt_mul _ _⟩

/-- Settles O22: the flag byte is fixed by the order of the two registers' values. -/
theorem cmpSetsOneFlag : Obligations.CmpSetsOneFlag := by
  unfold Obligations.CmpSetsOneFlag
  intro s ra rb
  have hfl : (controlFlow (.seq 3) (s.setFl (compareFlags (s.reg ra) (s.reg rb)))).fl =
      if (s.reg ra).toNat < (s.reg rb).toNat then 4 else if (s.reg rb).toNat < (s.reg ra).toNat then 2 else 1 := by
    rw [controlFlow_fl, State.setFl_fl, compareFlags_eq]
  refine ⟨_, exec_cmp ra rb s, fun heq => ?equal, fun hgt => ?greater, fun hlt => ?less,
    controlFlow_seq_pc 3 (s.setFl _), fun _ _ => by simp, by simp, by simp, fun _ => by simp, by simp⟩
  case equal => rw [hfl, heq, if_neg (Nat.lt_irrefl _), if_neg (Nat.lt_irrefl _)]
  case greater => rw [hfl, if_neg (Nat.lt_asymm hgt), if_pos hgt]
  case less => rw [hfl, if_pos hlt]

/-- Settles O30: JMP's next state is the control_flow_unit's alone. -/
theorem jmpGoesToRegister : Obligations.JmpGoesToRegister := by
  unfold Obligations.JmpGoesToRegister
  exact fun s r => ⟨_, exec_jmp r s, rfl, onlyRegsAndPc_controlFlow _ s⟩

/-- Settles O31: both PC values are the control_flow_unit's, by E. -/
theorem conditionalJumpsFollowE : Obligations.ConditionalJumpsFollowE := by
  unfold Obligations.ConditionalJumpsFollowE
  intro s r
  refine ⟨⟨_, exec_jeq r s, ?jeq, onlyRegsAndPc_controlFlow _ s⟩,
    ⟨_, exec_jne r s, ?jne, onlyRegsAndPc_controlFlow _ s⟩⟩
  case jeq => simp only [controlFlow_pc, State.flagE, nextSeqPc_eq]
  case jne => simp only [controlFlow_pc, State.flagE, nextSeqPc_eq]

end Sys2Proof.Machine
end

section
/-! The stack: PUSH, POP, CALL and RET, at the ends of the address space and within it, and the two balance laws. -/

namespace Sys2Proof.Machine

/-- The decrement of SP raises StackOverflow from 0 under `Fault` (R86). -/
theorem decSp_overflow {s : State} (hsp : s.sp = 0) (hfault : s.params.boundsPolicy = .fault) :
    decSp s = .error (.stackOverflow 0 s.pc) := by
  rcases decSp_cases s with ⟨_, hwrap | hne⟩ | ⟨h, _⟩
  · rw [hfault] at hwrap; cases hwrap
  · exact absurd hsp hne
  · exact h

/-- The increment of SP raises StackUnderflow from 255 under `Fault` (R86). -/
theorem incSp_underflow {s : State} (hsp : s.sp = 255) (hfault : s.params.boundsPolicy = .fault) :
    incSp s = .error (.stackUnderflow 255 s.pc) := by
  rcases incSp_cases s with ⟨_, hwrap | hne⟩ | ⟨h, _⟩
  · rw [hfault] at hwrap; cases hwrap
  · exact absurd hsp hne
  · exact h

/-- An address past memory raises MemoryBoundsError under `Fault` (R37). -/
theorem chk_past {s : State} {a : Nat} (ha : 255 < a) (hfault : s.params.boundsPolicy = .fault) :
    chk s a = .error (.memoryBoundsError a s.pc) := by
  rcases chk_cases s a with ⟨_, hle | hwrap⟩ | ⟨h, _⟩
  · omega
  · rw [hfault] at hwrap; cases hwrap
  · exact h

/-- Settles O25: the first sub-step that moves SP raises, and the fault entry keeps the rest. -/
theorem stackEndsRaiseUnderFault : Obligations.StackEndsRaiseUnderFault := by
  unfold Obligations.StackEndsRaiseUnderFault
  intro s r hfault
  refine ⟨fun hsp => ?push, fun hpop => ?pop, fun hsp => ?ret⟩
  case push => rw [exec_push, decSp_overflow hsp hfault]; rfl
  case pop =>
    rw [← State.sp_setReg] at hpop
    rw [exec_pop, incSp_underflow hpop hfault]; rfl
  case ret => rw [exec_ret, incSp_underflow hsp hfault]; rfl

/-- Settles O28: CALL checks its return address first, then moves SP. -/
theorem callRaisesInOrder : Obligations.CallRaisesInOrder := by
  unfold Obligations.CallRaisesInOrder
  intro s r hfault
  refine ⟨fun hpc => ?bounds, fun hpc hsp => ?stack⟩
  case bounds => rw [exec_call, chk_past (by omega) hfault]; rfl
  case stack => rw [exec_call, chk_of_le (by omega), ok_bind, decSp_overflow hsp hfault]; rfl

/-- The copy PUSH and CALL make of the state, SP decremented and a byte stored there: all registers but SP and all of
memory but the cell at the new SP are as before. -/
theorem push_frame (s : State) (v : Byte) :
    SameRegsExcept [.r7] s ((s.setSp (s.sp - 1)).writeByte (s.sp - 1) v) ∧
      SameMemoryExcept (s.sp - 1) s ((s.setSp (s.sp - 1)).writeByte (s.sp - 1) v) := by
  refine ⟨fun q hq => ?_, fun b hb => ?_⟩
  · rw [State.writeByte_reg, State.reg_setSp, if_neg (by simpa using hq)]
  · rw [State.readByte_writeByte_ne hb, State.setSp_readByte]

/-- The byte stored at the new SP is read there. -/
theorem readByte_push {s : State} (hwf : s.mem.wf = true) (v : Byte) :
    ((s.setSp (s.sp - 1)).writeByte (s.sp - 1) v).readByte (s.sp - 1) = v := by
  rw [State.readByte_writeByte (s := s.setSp (s.sp - 1)) hwf, if_pos rfl]

/-- Settles O23: the frame of the push, and its cell read back from a canonical memory. -/
theorem pushStoresBelowSp : Obligations.PushStoresBelowSp := by
  unfold Obligations.PushStoresBelowSp
  intro s r hwf hok
  obtain ⟨hregs, hmem⟩ := push_frame s ((s.setSp (s.sp - 1)).reg r)
  refine ⟨_, (Completes.push r hok).exec_eq, by simp, ?stored, fun b hb => ?memory, fun q hq => ?regs,
    controlFlow_seq_pc _ _, by simp, by simp, by simp, by simp⟩
  case stored => rw [controlFlow_readByte, readByte_push hwf, State.reg_setSp]
  case memory => rw [controlFlow_readByte, hmem b hb]
  case regs => rw [controlFlow_reg, hregs q hq]

/-- Settles O24: R7 is incremented as the write of the popped byte left it. -/
theorem popLoadsAtSp : Obligations.PopLoadsAtSp := by
  unfold Obligations.PopLoadsAtSp
  intro s r hok
  rw [← State.sp_setReg] at hok
  refine ⟨_, (Completes.pop r hok).exec_eq, fun hr => ⟨?reg, ?sp⟩, fun hr => ?sp7, controlFlow_seq_pc _ _,
    fun q hq => ?regs, by simp, by simp, by simp, fun _ => by simp, by simp⟩
  case reg => rw [controlFlow_reg, State.reg_setSp, if_neg hr, State.reg_setReg_self]
  case sp => rw [controlFlow_sp, State.sp_setSp, State.sp_setReg, if_neg hr]
  case sp7 => rw [controlFlow_sp, State.sp_setSp, State.sp_setReg, if_pos hr]
  case regs =>
    obtain ⟨hr, h7⟩ : q ≠ r ∧ q ≠ .r7 := by simpa using hq
    rw [controlFlow_reg, State.reg_setSp, if_neg h7, State.reg_setReg, if_neg hr]

/-- Settles O27: the frame of the push; the target is read from the registers it left. -/
theorem callPushesReturnAddress : Obligations.CallPushesReturnAddress := by
  unfold Obligations.CallPushesReturnAddress
  intro s r hwf hok
  obtain ⟨hregs, hmem⟩ := push_frame s (BitVec.ofNat 8 (s.pc + 2))
  have hsp : s.params.boundsPolicy = .wrap ∨ s.sp ≠ 0 := hok.imp_right And.right
  have hret : s.pc + 2 ≤ 255 ∨ s.params.boundsPolicy = .wrap := hok.symm.imp_left fun h => by omega
  refine ⟨_, (Completes.call r hsp hret).exec_eq, by simp, ?stored, fun b hb => ?memory, ?target, fun q hq => ?regs,
    by simp, by simp, by simp, by simp⟩
  case stored => rw [controlFlow_readByte, readByte_push hwf, BitVec.toNat_ofNat]
  case memory => rw [controlFlow_readByte, hmem b hb]
  case target => rw [controlFlow_pc, State.reg_setSp]
  case regs => rw [controlFlow_reg, hregs q hq]

/-- Settles O29: RET writes SP, then PC. -/
theorem retPopsPc : Obligations.RetPopsPc := by
  unfold Obligations.RetPopsPc
  exact fun s hok => ⟨_, (Completes.ret hok).exec_eq, rfl, by simp, onlyRegsAndPc_controlFlow_setReg _ s .r7 _⟩

/-- Where SP could be decremented, the result can be incremented again. -/
theorem sub_one_ne_of_ne_zero {v : Byte} (h : v ≠ 0) : v - 1 ≠ 255 := by
  bv_omega

/-- Settles O26: POP reads the cell PUSH wrote, and its increment undoes PUSH's decrement; for R7 the popped byte is the
decremented SP itself. -/
theorem pushThenPopRestores : Obligations.PushThenPopRestores := by
  unfold Obligations.PushThenPopRestores
  intro s r hwf hok
  obtain ⟨t, hpush, hsp, hcell, _, hregs, _, _, _, _, hparams⟩ := pushStoresBelowSp s r hwf hok
  rw [← hsp] at hcell
  have hinc : t.params.boundsPolicy = .wrap ∨ (if r = .r7 then t.readByte t.sp else t.sp) ≠ 255 := by
    rw [hparams]
    refine hok.imp_right fun h0 => ?_
    have hne : t.sp ≠ 255 := hsp ▸ sub_one_ne_of_ne_zero h0
    by_cases hr : r = .r7
    · rwa [if_pos hr, hcell, if_pos hr]
    · rwa [if_neg hr]
  obtain ⟨u, hpop, hother, h7, _, hregs', _⟩ := popLoadsAtSp t r hinc
  have hspu : u.sp = s.sp := by
    by_cases hr : r = .r7
    · rw [h7 hr, hcell, if_pos hr, hsp, sub_add_cancel]
    · rw [(hother hr).2, hsp, sub_add_cancel]
  refine ⟨t, u, hpush, hpop, fun q _ => ?_⟩
  by_cases hq7 : q = .r7
  · rw [hq7]; exact hspu
  · by_cases hqr : q = r
    · subst hqr
      rw [(hother hq7).1, hcell, if_neg hq7]
    · rw [hregs' q (by simp [hqr, hq7]), hregs q (by simpa using hq7)]

/-- Settles O32: RET reads the return address where CALL stored it, and its increment undoes CALL's decrement. -/
theorem callThenRetReturns : Obligations.CallThenRetReturns := by
  unfold Obligations.CallThenRetReturns
  intro s r hwf hok
  obtain ⟨t, hcall, hsp, hcell, _, _, hregs, hfl, hstatus, hout, hparams⟩ := callPushesReturnAddress s r hwf hok
  have hinc : t.params.boundsPolicy = .wrap ∨ t.sp ≠ 255 := by
    rw [hparams, hsp]
    exact hok.imp_right fun ⟨_, h0⟩ => sub_one_ne_of_ne_zero h0
  obtain ⟨u, hret, hpc, hspu, hregs', hfl', hstatus', hout', _⟩ := retPopsPc t hinc
  refine ⟨t, u, hcall, hret, by rw [hpc, hsp, hcell], fun q _ => ?_, hfl'.trans hfl, hstatus'.trans hstatus,
    hout'.trans hout⟩
  by_cases hq : q = .r7
  · rw [hq]
    calc u.sp = t.sp + 1 := hspu
      _ = s.sp := by rw [hsp, sub_add_cancel]
  · have hmem : q ∉ [Reg.r7] := by simpa using hq
    rw [hregs' q hmem, hregs q hmem]

end Sys2Proof.Machine
end

section
/-! Frames over every instruction and every step: memory (R36), registers (R18), FL (R25), PC (R71), `out` (R30), status
(R108) and the parameters. -/

namespace Sys2Proof.Machine

/-- `i` is a PUSH or a CALL, and memory is kept but for the cell at the address `sp_dec` gives for SP (R87, R92). -/
def StoresAtNewSp (i : Instr) (s t : State) : Prop :=
  (∃ r, i = .push r ∨ i = .call r) ∧ ∃ a, spDec s s.sp = .ok a ∧ SameMemoryExcept a s t

/-- Memory is kept but by PUSH and CALL (R36). -/
theorem Completes.memory {s t : State} {i : Instr} (h : Completes s i t) :
    SameMemory s t ∨ StoresAtNewSp i s t := by
  cases h with
  | push r h | call r h _ =>
    refine .inr ⟨⟨r.toByte, by simp⟩, _, spDec_ok h, fun b hb => ?_⟩
    rw [controlFlow_readByte, (push_frame s _).2 b hb]
  | _ => exact .inl fun _ => by simp

/-- The same for execution, where an error keeps memory. -/
theorem exec_memory {s t : State} {i : Instr} (h : exec i s = .next t) :
    SameMemory s t ∨ StoresAtNewSp i s t := by
  rcases exec_eq_next h with ⟨e, _, rfl⟩ | hdone
  · exact .inl fun _ => by simp
  · exact hdone.memory

/-- Settles O33: of what execution can do to memory, PUSH's and CALL's case is excluded. -/
theorem onlyPushAndCallStore : Obligations.OnlyPushAndCallStore := by
  unfold Obligations.OnlyPushAndCallStore
  intro i s t hexec hother
  rcases exec_memory hexec with hsame | ⟨⟨r, hpush | hcall⟩, _⟩
  · exact hsame
  · exact absurd hpush (hother r).1
  · exact absurd hcall (hother r).2

/-- Settles O34: memory changed only where `sp_dec` gave an address, and only there. -/
theorem pushAndCallStoreOnlyAtNewSp : Obligations.PushAndCallStoreOnlyAtNewSp := by
  unfold Obligations.PushAndCallStoreOnlyAtNewSp
  intro r s t hexec
  have hmem : SameMemory s t ∨ ∃ a, spDec s s.sp = .ok a ∧ SameMemoryExcept a s t :=
    hexec.elim (fun h => (exec_memory h).imp_right And.right) (fun h => (exec_memory h).imp_right And.right)
  rcases hmem with hsame | ⟨a, hdec, hexcept⟩
  · exact ⟨fun _ _ b _ => hsame b, fun _ _ => hsame⟩
  · refine ⟨fun a' hdec' => ?_, fun e herr => ?_⟩
    · obtain rfl : a = a' := Except.ok.inj (hdec.symm.trans hdec')
      exact hexcept
    · rw [hdec] at herr
      cases herr

/-- A completed instruction writes its destination operand, and SP where it uses SP (R18). -/
theorem Completes.regs {s t : State} {i : Instr} (h : Completes s i t) : SameRegsExcept (writtenRegs i) s t := by
  intro q hq
  cases h with
  | ldi r | mul r | add r =>
    have hne : q ≠ r := by simpa [writtenRegs] using hq
    rw [controlFlow_reg, State.reg_setReg, if_neg hne]
  | push r | call r => rw [controlFlow_reg, (push_frame s _).1 q hq]
  | pop r =>
    obtain ⟨hr, h7⟩ : q ≠ r ∧ q ≠ .r7 := by simpa [writtenRegs] using hq
    rw [controlFlow_reg, State.reg_setSp, if_neg h7, State.reg_setReg, if_neg hr]
  | ret =>
    have h7 : q ≠ .r7 := by simpa [writtenRegs] using hq
    rw [controlFlow_reg, State.reg_setSp, if_neg h7]
  | _ => simp

/-- Settles O35: an error keeps all registers, and a completed instruction those it may not write. -/
theorem registersOutsideDestinationKept : Obligations.RegistersOutsideDestinationKept := by
  unfold Obligations.RegistersOutsideDestinationKept
  intro i s t hexec
  rcases exec_eq_next hexec with ⟨e, _, rfl⟩ | hdone
  · exact fun q _ => takeFault_reg e s q
  · exact hdone.regs

/-- Settles O36: an error keeps FL, and of the completed instructions CMP is excluded. -/
theorem onlyCmpWritesFlags : Obligations.OnlyCmpWritesFlags := by
  unfold Obligations.OnlyCmpWritesFlags
  intro i s t hexec hother
  rcases exec_eq_next hexec with ⟨e, _, rfl⟩ | hdone
  · exact takeFault_fl e s
  · rcases hdone.fl with hfl | ⟨a, b, hi, _⟩
    · exact hfl
    · exact absurd hi (hother a.toByte b.toByte)

/-- Settles O40: the instructions listed are not HLT and transfer no control. -/
theorem pcAdvancesByLength : Obligations.PcAdvancesByLength := by
  unfold Obligations.PcAdvancesByLength
  intro i s t _ hexec hrun hseq
  rcases exec_eq_next hexec with ⟨e, _, rfl⟩ | hdone
  · cases hrun
  · rcases hdone.pc with ⟨rfl, _⟩ | hpc | ⟨htransfer, _⟩
    · exact absurd hseq (by decide)
    · rw [hpc, length_eq_encode]
    · have hdisjoint : ∀ m ∈ [Mnemonic.ldi, .prn, .add, .mul, .cmp, .push, .pop],
          m ∉ [Mnemonic.call, .ret, .jmp, .jeq, .jne] := by decide
      exact absurd htransfer (hdisjoint _ hseq)

/-- Settles O41: by what a step, `load` and the beginning of `run()` can do. -/
theorem parametersNeverChange : Obligations.ParametersNeverChange := by
  unfold Obligations.ParametersNeverChange
  refine ⟨fun s t hstep => ?step, fun bytes s t hload => ?load, fun s t hrun => ?run⟩
  case step =>
    obtain ⟨_, ⟨e, _, rfl⟩ | ⟨_, e, _, _, rfl⟩ | ⟨i, _, hdone⟩⟩ := step_cases hstep
    · exact takeFault_params e s
    · exact takeFault_params e s
    · exact hdone.params
  case load =>
    obtain ⟨_, _, rfl⟩ := load_eq_ok.1 hload
    rfl
  case run =>
    obtain ⟨_, rfl⟩ := startRun_eq_ok.1 hrun
    rfl

/-- PRN alone appends to `out`, one byte (R77). -/
theorem Completes.out {s t : State} {i : Instr} (h : Completes s i t) :
    t.out = s.out ∨ ∃ r : Reg, i = .prn r.toByte ∧ t.out = s.out ++ [s.reg r] := by
  cases h with
  | prn r => exact .inr ⟨r, rfl, by simp⟩
  | _ => exact .inl (by simp)

/-- Settles O38: an error keeps `out`, and a completed instruction that appends is a PRN. -/
theorem onlyPrnAppendsOneByte : Obligations.OnlyPrnAppendsOneByte := by
  unfold Obligations.OnlyPrnAppendsOneByte
  intro s t hstep
  obtain ⟨_, ⟨e, _, rfl⟩ | ⟨_, e, _, _, rfl⟩ | ⟨i, hfetch, hdone⟩⟩ := step_cases hstep
  · exact .inl (takeFault_out e s)
  · exact .inl (takeFault_out e s)
  · rcases hdone.out with hout | ⟨r, rfl, hout⟩
    · exact .inl hout
    · exact .inr ⟨r.toByte, s.reg r, hfetch, hout⟩

/-- A completed HLT sets Halted and nothing else. -/
theorem Completes.eq_of_hlt {s t : State} (h : Completes s .hlt t) : t = s.setStatus .halted :=
  Host.Outcome.next.inj (h.exec_eq.symm.trans (exec_hlt s))

/-- How a step ends, by status: Running and not at an HLT; at an HLT, with nothing else changed; or by a fault entry. -/
theorem step_status_cases {s t : State} (h : step s = .next t) :
    (t.status = .running ∧ fetchInstr s ≠ .ok .hlt) ∨ (t = s.setStatus .halted ∧ fetchInstr s = .ok .hlt) ∨
      ∃ e, t = takeFault e s := by
  obtain ⟨hrun, ⟨e, _, rfl⟩ | ⟨_, e, _, _, rfl⟩ | ⟨i, hfetch, hdone⟩⟩ := step_cases h
  · exact .inr (.inr ⟨e, rfl⟩)
  · exact .inr (.inr ⟨e, rfl⟩)
  · by_cases hi : i = .hlt
    · subst hi
      exact .inr (.inl ⟨hdone.eq_of_hlt, hfetch⟩)
    · rcases hdone.status with hs | ⟨hhlt, _⟩
      · refine .inl ⟨hs.trans hrun, fun hhlt => hi ?_⟩
        exact Except.ok.inj (hfetch.symm.trans hhlt)
      · exact absurd hhlt hi

/-- Settles O39: the statuses of the three ways a step ends. -/
theorem onlyHltAndFaultsEndARun : Obligations.OnlyHltAndFaultsEndARun := by
  unfold Obligations.OnlyHltAndFaultsEndARun
  intro s t hstep
  rcases step_status_cases hstep with hrun | ⟨rfl, hfetch⟩ | ⟨e, rfl⟩
  · exact .inl hrun
  · exact .inr (.inl ⟨rfl, hfetch⟩)
  · exact .inr (.inr ⟨e, rfl⟩)

/-- Settles O46: the invariant by induction on the way to the state, the output by what one step appends. -/
theorem reachableStatesMeetInv : Obligations.ReachableStatesMeetInv := by
  unfold Obligations.ReachableStatesMeetInv
  refine fun s hreach => ⟨hreach.inv, fun t hstep => ?_⟩
  rcases onlyPrnAppendsOneByte s t hstep with hout | ⟨_, v, _, hout⟩ <;> rw [hout]
  · exact List.prefix_append s.out [v]

end Sys2Proof.Machine
end

section
/-! FL is read in bit E alone (R25): execution from a state with another FL of the same bit 0 ends alike but for FL. -/

namespace Sys2Proof.Machine

/-- `o'`, an outcome from a state with another FL, is `o` up to the FL of the next state. -/
def SameButFl (o o' : Host.Outcome State Fault Refusal) : Prop :=
  ∃ t g, o = .next t ∧ o' = .next (t.setFl g)

/-- Fault entry keeps FL, whatever it is. -/
theorem sameButFl_takeFault (s : State) (f : Byte) (e : ErrorRecord) :
    SameButFl (commit s (.error e)) (commit (s.setFl f) (.error e)) :=
  ⟨takeFault e s, f, rfl, rfl⟩

/-- The register operand check does not look at FL. -/
theorem sameButFl_regOperand {s : State} {f : Byte} (b : Byte) {k k' : Reg → Except ErrorRecord State}
    (hk : ∀ r, SameButFl (commit s (k r)) (commit (s.setFl f) (k' r))) :
    SameButFl (commit s (regOperand s b >>= k)) (commit (s.setFl f) (regOperand (s.setFl f) b >>= k')) := by
  change SameButFl _ (commit _ (regOperand s b >>= k'))
  cases regOperand s b with
  | ok r => exact hk r
  | error e => exact sameButFl_takeFault s f e

/-- The decrement of SP neither reads nor writes FL. -/
theorem decSp_setFl (s : State) (f : Byte) : decSp (s.setFl f) = (decSp s).map (·.setFl f) := by
  change (spDec s s.sp >>= fun v => .ok ((s.setSp v).setFl f)) = _
  unfold decSp
  cases spDec s s.sp <;> rfl

/-- The increment of SP neither reads nor writes FL. -/
theorem incSp_setFl (s : State) (f : Byte) : incSp (s.setFl f) = (incSp s).map (·.setFl f) := by
  change (spInc s s.sp >>= fun v => .ok ((s.setSp v).setFl f)) = _
  unfold incSp
  cases spInc s s.sp <;> rfl

/-- Taking the alu's outputs overwrites FL or keeps it, and does not look at it. -/
theorem AluOut.apply_setFl (o : AluOut) (ra : Reg) (s : State) (f : Byte) :
    o.apply ra (s.setFl f) = (o.apply ra s).setFl (o.flIn.getD f) := by
  obtain ⟨result, flIn⟩ := o
  cases result <;> cases flIn <;> rfl

/-- An ALU instruction does not look at FL. -/
theorem sameButFl_aluStep (s : State) (f : Byte) (op : BitVec 2) (a b : Byte) :
    SameButFl (commit s (aluStep op a b s)) (commit (s.setFl f) (aluStep op a b (s.setFl f))) := by
  unfold aluStep
  change SameButFl _ (commit _ (regOperands s a b >>= fun p => alu op (s.reg p.1) (s.reg p.2) s.pc >>= fun o =>
    .ok (controlFlow (.seq 3) (o.apply p.1 (s.setFl f)))))
  cases regOperands s a b with
  | error e => exact sameButFl_takeFault s f e
  | ok p =>
    obtain ⟨ra, rb⟩ := p
    simp only [ok_bind]
    cases alu op (s.reg ra) (s.reg rb) s.pc with
    | error e => exact sameButFl_takeFault s f e
    | ok o => exact ⟨_, o.flIn.getD f, rfl, by rw [ok_bind, AluOut.apply_setFl]; rfl⟩

/-- A conditional jump looks at E alone. -/
theorem controlFlow_setFl {s : State} {f : Byte} (he : (s.setFl f).flagE = s.flagE) (tr : Transfer) :
    controlFlow tr (s.setFl f) = (controlFlow tr s).setFl f := by
  cases tr with
  | ifEqual t | ifNotEqual t =>
    unfold controlFlow
    rw [he]
    cases s.flagE <;> rfl
  | _ => rfl

/-- R25 for every instruction. -/
theorem sameButFl_exec {s : State} {f : Byte} (he : (s.setFl f).flagE = s.flagE) (i : Instr) :
    SameButFl (exec i s) (exec i (s.setFl f)) := by
  cases i with
  | hlt => exact ⟨_, f, rfl, rfl⟩
  | ldi b v | prn b | jmp b => exact sameButFl_regOperand b fun r => ⟨_, f, rfl, rfl⟩
  | jeq b | jne b =>
    refine sameButFl_regOperand b fun r => ⟨_, f, rfl, ?_⟩
    rw [controlFlow_setFl he]
    rfl
  | mul a b | add a b | cmp a b => exact sameButFl_aluStep s f _ a b
  | push b =>
    refine sameButFl_regOperand b fun r => ?_
    rw [decSp_setFl]
    cases decSp s with
    | ok s1 => exact ⟨_, f, rfl, rfl⟩
    | error e => exact sameButFl_takeFault s f e
  | pop b =>
    refine sameButFl_regOperand b fun r => ?_
    change SameButFl (commit s (incSp (s.setReg r (s.readByte s.sp)) >>= _))
      (commit _ (incSp ((s.setReg r (s.readByte s.sp)).setFl f) >>= _))
    rw [incSp_setFl]
    cases incSp (s.setReg r (s.readByte s.sp)) with
    | ok s1 => exact ⟨_, f, rfl, rfl⟩
    | error e => exact sameButFl_takeFault s f e
  | call b =>
    refine sameButFl_regOperand b fun r => ?_
    change SameButFl _ (commit _ (chk s (s.pc + 2) >>= _))
    cases chk s (s.pc + 2) with
    | error e => exact sameButFl_takeFault s f e
    | ok a =>
      rw [ok_bind, ok_bind, decSp_setFl]
      cases decSp s with
      | ok s1 => exact ⟨_, f, rfl, rfl⟩
      | error e => exact sameButFl_takeFault s f e
  | ret =>
    change SameButFl _ (commit _ (incSp (s.setFl f) >>= _))
    rw [exec_ret, incSp_setFl]
    cases incSp s with
    | ok s1 => exact ⟨_, f, rfl, rfl⟩
    | error e => exact sameButFl_takeFault s f e

/-- Settles O37: execution from the other FL gives the same next state up to its FL. -/
theorem onlyEqualBitIsRead : Obligations.OnlyEqualBitIsRead := by
  unfold Obligations.OnlyEqualBitIsRead
  intro i s t f hexec hbit
  obtain ⟨t', g, ht, hu⟩ := sameButFl_exec (s := s) (f := f) hbit i
  obtain rfl : t = t' := Host.Outcome.next.inj (hexec.symm.trans ht)
  exact ⟨t.setFl g, hu, rfl, rfl, rfl, rfl, rfl, rfl⟩

end Sys2Proof.Machine
end

section
/-! Programs at work: a PUSH into code (R46), a JMP to itself (R73), a new `run()` (R118). -/

namespace Sys2Proof.Machine

/-- A running core at an HLT halts there. -/
theorem step_of_codeAt_hlt {s : State} (hrun : s.status = .running) (hcode : CodeAt s [0x01]) :
    step s = .next { s with status := .halted } :=
  (step_of_codeAt_encode (i := .hlt) hrun hcode fun _ => by decide).trans (hltHalts s)

/-- PC after a sequential advance within memory, under either policy. -/
theorem pcAfter_of_le {s : State} {n : Nat} (h : s.pc + n ≤ 255) : pcAfter s n = s.pc + n := by
  unfold pcAfter
  split_ifs
  · exact Nat.mod_eq_of_lt (by omega)
  · rfl

/-- Settles O42: PUSH stores 0x01 at SP - 1, which is PC + 2, where the next step fetches. -/
theorem pushIntoCodeRunsNext : Obligations.PushIntoCodeRunsNext := by
  unfold Obligations.PushIntoCodeRunsNext
  intro s r hrun hwf hcode hr hreg hsp
  have hlt : s.sp.toNat < 256 := s.sp.isLt
  have hne : s.sp ≠ 0 := by bv_omega
  have hcell : BitVec.ofNat 8 (s.pc + 2) = s.sp - 1 := by bv_omega
  obtain ⟨t, hpush, _, hbyte, _, _, hpc, _, hstatus, _⟩ := pushStoresBelowSp s r hwf (.inr hne)
  have hpc2 : t.pc = s.pc + 2 := by
    rw [hpc, pcAfter_of_le (by omega)]
  have hstep : step s = .next t :=
    (step_of_codeAt_encode (i := .push r.toByte) hrun hcode fun _ => by simp [Instr.mnemonic]).trans hpush
  have hhlt : CodeAt t [0x01] := by
    refine codeAt_one.2 ⟨by omega, ?_⟩
    rw [hpc2, hcell, hbyte, if_neg hr, hreg]
  exact ⟨t, hstep, hpc2, step_of_codeAt_hlt (hstatus.trans hrun) hhlt⟩

/-- A running core whose step gives the same state again has no other state after any number of steps, and no run of it
ends. -/
theorem run_of_step_self {s : State} (hrun : s.status = .running) (hstep : step s = .next s) (n : Nat) :
    Sys2Proof.core.run n s = .next s ∧ runLoop n s = none := by
  induction n with
  | zero => exact ⟨core_run_zero s, if_pos hrun⟩
  | succ n ih =>
    refine ⟨(core_run_succ n hstep).trans ih.1, ?_⟩
    rw [runLoop, if_pos hrun, hstep]
    exact ih.2

/-- Settles O52: the JMP sets PC to the value it has. -/
theorem jumpToSelfNeverEnds : Obligations.JumpToSelfNeverEnds := by
  unfold Obligations.JumpToSelfNeverEnds
  intro s r hrun hjumps hcode hself
  have hexec : exec (.jmp r.toByte) s = .next s := by
    rw [exec_jmp, controlFlow, hself]
    rfl
  have hstep : step s = .next s :=
    (step_of_codeAt_encode (i := .jmp r.toByte) hrun hcode fun h => by simp [hjumps] at h).trans hexec
  exact run_of_step_self hrun hstep

/-- Only the status differs after the last step of a run, so the beginning of the next run gives back the state before
that step (R104, R118). -/
theorem resume_of_step_ended {s t : State} (h : step s = .next t) (hend : t.status ≠ .running) : resume t = s := by
  have hrun : s.status = .running := (step_cases h).1
  have hsame : resume (s.setStatus t.status) = s := by
    cases s
    cases hrun
    rfl
  rcases step_status_cases h with ⟨hr, _⟩ | ⟨rfl, _⟩ | ⟨e, rfl⟩
  · exact absurd hr hend
  · exact hsame
  · exact hsame

/-- The loop of `run()` on a core whose first step ends the run. -/
theorem runLoop_one {s t : State} (h : step s = .next t) (hend : t.status ≠ .running) : runLoop 1 s = some t := by
  rw [runLoop, if_pos (step_cases h).1, h]
  exact if_neg hend

/-- A step that ends a run gives `run()` a result: success for Halted, the error for Faulted (R114). -/
theorem runResult_of_step_ended {s t : State} (h : step s = .next t) (hend : t.status ≠ .running) :
    ∃ r, runResult t = some r ∧ (r = .success ↔ t.status = .halted) ∧
      ∀ e, r = .executionError e ↔ t.status = .faulted e := by
  rcases step_status_cases h with ⟨hr, _⟩ | ⟨rfl, _⟩ | ⟨e, rfl⟩
  · exact absurd hr hend
  · exact ⟨.success, rfl, by simp, by simp⟩
  · exact ⟨.executionError e, rfl, by simp, by simp⟩

/-- Settles O51: the new run begins in the state before the last step. -/
theorem runAgainEndsTheSame : Obligations.RunAgainEndsTheSame := by
  unfold Obligations.RunAgainEndsTheSame
  intro s t hstep hend
  have hstart : startRun t = .ok s := startRun_eq_ok.2 ⟨hend, (resume_of_step_ended hstep hend).symm⟩
  obtain ⟨r, hresult, hr⟩ := runResult_of_step_ended hstep hend
  have hrun : run 1 t = .ok (some (t, r)) := by
    rw [run, hstart, ok_bind, runLoop_one hstep hend]
    simp [hresult]
  exact ⟨s, r, hstart, hstep, hrun, hr⟩

end Sys2Proof.Machine
end

section
/-! Construction and the host's `load`, `registers` and `memory` (R34, R115, R117, R119). -/

namespace Sys2Proof.Machine

/-- Copying bytes changes no cell below the first it writes. -/
theorem Memory.readAt_copyFrom_of_lt {a k : Nat} (h : a < k) (bs : List Byte) (m : Memory) :
    Memory.readAt (Memory.copyFrom k bs m) a = Memory.readAt m a := by
  induction bs generalizing k m with
  | nil => rfl
  | cons b bs ih => rw [Memory.copyFrom, ih (by omega), Memory.readAt_writeAt_ne (by omega)]

/-- Copying bytes writes byte `j` of them to the cell `j` past the first, and keeps the cells past the last. -/
theorem Memory.readAt_copyFrom {m : Memory} (hwf : m.wf = true) {k : Nat} {bs : List Byte}
    (hk : k + bs.length ≤ memSize) (j : Nat) :
    Memory.readAt (Memory.copyFrom k bs m) (k + j) = (bs[j]?).getD (Memory.readAt m (k + j)) := by
  induction bs generalizing k m j with
  | nil => rfl
  | cons b bs ih =>
    rw [List.length_cons] at hk
    rw [Memory.copyFrom]
    cases j with
    | zero =>
      rw [Memory.readAt_copyFrom_of_lt (by omega), Memory.readAt_writeAt hwf, if_pos (Nat.add_zero k)]
      rfl
    | succ j =>
      have hih := ih (Memory.wf_writeAt hwf (by omega : k < memSize) b) (k := k + 1) (by omega) j
      rw [Memory.readAt_writeAt_ne (by omega)] at hih
      rw [show k + (j + 1) = k + 1 + j by omega, hih, List.getElem?_cons_succ]

/-- Every cell after a `load`: the byte of the sequence, or past its end what stood there. -/
theorem readByte_of_load {bytes : List Byte} {s t : State} (hwf : s.mem.wf = true) (h : load bytes s = .ok t)
    (a : Byte) : t.readByte a = (bytes[a.toNat]?).getD (s.readByte a) := by
  obtain ⟨_, hlen, rfl⟩ := load_eq_ok.1 h
  have hread := Memory.readAt_copyFrom hwf (k := 0) (bs := bytes) (by omega) a.toNat
  rwa [Nat.zero_add] at hread

/-- Settles O50: the cells by induction over the bytes copied, the rest by `load`'s one field. -/
theorem loadCopiesBytes : Obligations.LoadCopiesBytes := by
  unfold Obligations.LoadCopiesBytes
  refine fun bytes s hwf => ⟨fun hstop hlen => ?fits, fun hstop hlong => ?long, fun hrun => if_pos hrun⟩
  case fits =>
    have hload := load_eq_ok.2 ⟨hstop, hlen, rfl⟩
    exact ⟨_, hload, readByte_of_load hwf hload, rfl, rfl, rfl, rfl, rfl, rfl⟩
  case long => rw [load, if_neg hstop, if_pos hlong]

/-- Settles O48: the constructed memory lists no cell. -/
theorem memoryZeroUntilLoad : Obligations.MemoryZeroUntilLoad := by
  unfold Obligations.MemoryZeroUntilLoad
  exact fun p a => ⟨rfl, fun bytes t hload => readByte_of_load (State.construct_wf p) hload a⟩

/-- Settles O47: each field of the constructed state as it stands there, register by register. -/
theorem constructionLeaves : Obligations.ConstructionLeaves := by
  unfold Obligations.ConstructionLeaves
  refine fun p => ⟨fun r hr => ?_, rfl, rfl, rfl, rfl, rfl, fun _ => rfl, rfl, rfl⟩
  cases r with
  | r7 => exact absurd rfl hr
  | _ => rfl

/-- Settles O53: byte `a` of `memory()` is element `a` of the range mapped. -/
theorem hostReadsState : Obligations.HostReadsState := by
  unfold Obligations.HostReadsState
  refine fun s => ⟨fun hstop => ⟨?registers, ?memory⟩, fun hrun => ⟨if_pos hrun, if_pos hrun⟩, rfl⟩
  case registers => rw [registers, if_neg hstop]; rfl
  case memory =>
    refine ⟨_, if_neg hstop, by simp, fun a => ?_⟩
    have ha : a.toNat < memSize := a.isLt
    rw [List.getElem?_map, List.getElem?_range ha, Option.map_some, BitVec.ofNat_toNat, BitVec.setWidth_eq]

end Sys2Proof.Machine
end
